-- ==== Sys2Proof/Word.lean ====
section
/-! DEFINITION. The word types of CORE (spec 00_scope.md R8, R11: every value is unsigned). -/

namespace Sys2Proof

/-- An 8-bit register value, memory byte or immediate `kk` (R8 `REG_WIDTH`). -/
abbrev Byte := BitVec 8

/-- A 16-bit instruction word, program counter value or stack entry (R8). -/
abbrev Word := BitVec 16

/-- A 12-bit address operand `nnn` (30_encoding.md R61). -/
abbrev Addr := BitVec 12

/-- A register index, 0 to 15: every index names a register (10_state.md R21). -/
abbrev RegIdx := Fin 16

end Sys2Proof
end

