-- ==== Sys2Proof/Config.lean ====
section
/-! DEFINITION. The parameters of CORE (spec 00_scope.md R8, R9, R10): the fixed widths, the parameters as one record
that every operation of the machine takes, and the record of the default values. -/

namespace Sys2Proof.Config

/-- The parameters: "the model takes these as configuration" (the sizes, R9), "a model may take each one as an
argument" (the behaviours, R10). Every state carries them in its type, so every meaning takes them as an argument. -/
structure Params where
  /-- `MEM_SIZE`: valid addresses are 0 to `memSize - 1`. -/
  memSize : Nat
  /-- `EXEC_BASE`: the reset pc, and the lowest legal CALL target. -/
  execBase : Nat
  /-- `STACK_DEPTH`: the capacity of the call stack. -/
  stackDepth : Nat
  /-- `STRICT_REG_SKIP_NIBBLE`: 5xyN and 9xyN with N not 0 are unimplemented. -/
  strictRegSkipNibble : Bool
  /-- `SHL_SUBOP`: the sub-operation number of SHL. -/
  shlSubop : BitVec 4
  deriving DecidableEq, Repr

/-- The constraints R9 puts on the sizes (D17). -/
abbrev Params.sizesLegal (p : Params) : Prop :=
  p.execBase < p.memSize ∧ p.memSize ≤ 4096 ∧ p.memSize + 2 < 2 ^ 16

/-! ## The default values -/

/-- The default of `MEM_SIZE` (R9). UNVERIFIED (log 13, unsafe): the literal is unaudited, D17. -/
abbrev memSize : Nat := 4096

/-- The default of `EXEC_BASE` (R9). UNVERIFIED (log 13, unsafe): D17. -/
abbrev execBase : Nat := 0x200

/-- The default of `STACK_DEPTH` (R9). UNVERIFIED (log 13, unsafe): D17. -/
abbrev stackDepth : Nat := 32

/-- The default of `STRICT_REG_SKIP_NIBBLE` (R10). UNVERIFIED (log 8, safe): D7. -/
abbrev strictRegSkipNibble : Bool := true

/-- The default of `SHL_SUBOP` (R10). UNVERIFIED (log 13, unsafe): D17. -/
abbrev shlSubop : BitVec 4 := 0x8#4

/-- The default parameters, which every worked example of the spec uses (R9) and "what every other rule states" (R10). -/
abbrev defaults : Params where
  memSize := memSize
  execBase := execBase
  stackDepth := stackDepth
  strictRegSkipNibble := strictRegSkipNibble
  shlSubop := shlSubop

/-! ## The fixed widths -/

/-- `INSN_BYTES`: one instruction is two bytes (R8). -/
abbrev insnBytes : Nat := 2

/-- `FLAG_REG`: the index of VF (R8). -/
abbrev flagReg : RegIdx := 15

end Sys2Proof.Config
end

