-- ==== Sys2Proof/Syntax.lean ====
section
/-! DEFINITION. The 19 instructions of CORE-19 (spec 30_encoding.md R65, R66, R67): one constructor for
each row of the opcode table. -/

namespace Sys2Proof

/-- The decoded operations of R65, less `Unimplemented(w)`, which is a result of decoding (`Op`, Decode.lean). -/
inductive Instr where
  /-- HALT, word 0000 (R90). -/
  | halt
  /-- RET, word 00EE (R91). -/
  | ret
  /-- JP nnn, 1nnn (R92). -/
  | jp (nnn : Addr)
  /-- CALL nnn, 2nnn (R93). -/
  | call (nnn : Addr)
  /-- SE Vx, kk, 3xkk (R100). -/
  | seImm (x : RegIdx) (kk : Byte)
  /-- SNE Vx, kk, 4xkk (R101). -/
  | sneImm (x : RegIdx) (kk : Byte)
  /-- SE Vx, Vy, 5xy0 (R102). -/
  | seReg (x y : RegIdx)
  /-- LD Vx, kk, 6xkk (R110). -/
  | ldImm (x : RegIdx) (kk : Byte)
  /-- ADD Vx, kk, 7xkk (R111). -/
  | addImm (x : RegIdx) (kk : Byte)
  /-- LD Vx, Vy, 8xy0 (R120). -/
  | ldReg (x y : RegIdx)
  /-- OR Vx, Vy, 8xy1 (R121). -/
  | orReg (x y : RegIdx)
  /-- AND Vx, Vy, 8xy2 (R122). -/
  | andReg (x y : RegIdx)
  /-- XOR Vx, Vy, 8xy3 (R123). -/
  | xorReg (x y : RegIdx)
  /-- ADD Vx, Vy, 8xy4 (R124). -/
  | addReg (x y : RegIdx)
  /-- SUB Vx, Vy, 8xy5 (R125). -/
  | sub (x y : RegIdx)
  /-- SHR Vx, 8xy6 for any y (R126; the y field is ignored, R64, log 9). -/
  | shr (x : RegIdx)
  /-- SUBN Vx, Vy, 8xy7 (R127). -/
  | subn (x y : RegIdx)
  /-- SHL Vx, 8xy8 for any y (R128; the y field is ignored, R64, log 9). -/
  | shl (x : RegIdx)
  /-- SNE Vx, Vy, 9xy0 (R103). -/
  | sneReg (x y : RegIdx)
  deriving DecidableEq, Repr

end Sys2Proof
end

