-- ==== Sys2Proof/WellFormed.lean ====
section
/-! DEFINITION. Well-formedness (spec 30_encoding.md R61, R63, R71): an instruction as it is written down has
operands that are plain numbers, and the checks here bound them by their fields. The operands of `Instr` carry
their bounds in their types, so every `Instr` passes. -/

namespace Sys2Proof

/-- The mnemonics of R71, `DW` (a raw word) among them. -/
inductive Mnemonic where
  | halt | ret | jp | call | se | sne | ld | add | or | and | xor | sub | shr | subn | shl | dw
  deriving DecidableEq, Repr

/-- An operand as it is written (R71): a register name or a number. -/
inductive Operand where
  | reg (index : Nat)
  | num (value : Nat)
  deriving DecidableEq, Repr

/-- One line of the spec's assembler syntax (R71): a mnemonic and its operands. -/
structure AsmLine where
  mnemonic : Mnemonic
  operands : List Operand
  deriving DecidableEq, Repr

/-- A register index fits the 4-bit fields x and y (R61, R63). -/
def fitsReg (n : Nat) : Bool := decide (n < 16)

/-- "`kk` must fit in 8 bits" (R71). -/
def fitsByte (n : Nat) : Bool := decide (n < 256)

/-- "`nnn` in 12 bits" (R71). -/
def fitsAddr (n : Nat) : Bool := decide (n < 4096)

/-- A raw word `0xhhhh` has 16 bits (R71). -/
def fitsWord (n : Nat) : Bool := decide (n < 65536)

/-- The assembler's checks (R71): the operands are of the kinds the mnemonic takes, and each fits its field;
"or the assembler refuses the line". Of `DW` R71 gives the one form `DW 0xhhhh`; here its operand is any number of at
most 16 bits, however it was spelled. DESIGN CHOICE (log 21, safe). -/
def AsmLine.wellFormed (l : AsmLine) : Bool :=
  match l.mnemonic, l.operands with
  | .halt, [] => true
  | .ret, [] => true
  | .jp, [.num n] => fitsAddr n
  | .call, [.num n] => fitsAddr n
  | .se, [.reg x, .num k] => fitsReg x && fitsByte k
  | .se, [.reg x, .reg y] => fitsReg x && fitsReg y
  | .sne, [.reg x, .num k] => fitsReg x && fitsByte k
  | .sne, [.reg x, .reg y] => fitsReg x && fitsReg y
  | .ld, [.reg x, .num k] => fitsReg x && fitsByte k
  | .ld, [.reg x, .reg y] => fitsReg x && fitsReg y
  | .add, [.reg x, .num k] => fitsReg x && fitsByte k
  | .add, [.reg x, .reg y] => fitsReg x && fitsReg y
  | .or, [.reg x, .reg y] => fitsReg x && fitsReg y
  | .and, [.reg x, .reg y] => fitsReg x && fitsReg y
  | .xor, [.reg x, .reg y] => fitsReg x && fitsReg y
  | .sub, [.reg x, .reg y] => fitsReg x && fitsReg y
  | .subn, [.reg x, .reg y] => fitsReg x && fitsReg y
  | .shr, [.reg x] => fitsReg x
  | .shr, [.reg x, .reg y] => fitsReg x && fitsReg y
  | .shl, [.reg x] => fitsReg x
  | .shl, [.reg x, .reg y] => fitsReg x && fitsReg y
  | .dw, [.num w] => fitsWord w
  | _, _ => false

/-- An instruction in the syntax of R71. -/
def Instr.toLine : Instr → AsmLine
  | .halt => ⟨.halt, []⟩
  | .ret => ⟨.ret, []⟩
  | .jp nnn => ⟨.jp, [.num nnn.toNat]⟩
  | .call nnn => ⟨.call, [.num nnn.toNat]⟩
  | .seImm x kk => ⟨.se, [.reg x.val, .num kk.toNat]⟩
  | .sneImm x kk => ⟨.sne, [.reg x.val, .num kk.toNat]⟩
  | .seReg x y => ⟨.se, [.reg x.val, .reg y.val]⟩
  | .ldImm x kk => ⟨.ld, [.reg x.val, .num kk.toNat]⟩
  | .addImm x kk => ⟨.add, [.reg x.val, .num kk.toNat]⟩
  | .ldReg x y => ⟨.ld, [.reg x.val, .reg y.val]⟩
  | .orReg x y => ⟨.or, [.reg x.val, .reg y.val]⟩
  | .andReg x y => ⟨.and, [.reg x.val, .reg y.val]⟩
  | .xorReg x y => ⟨.xor, [.reg x.val, .reg y.val]⟩
  | .addReg x y => ⟨.add, [.reg x.val, .reg y.val]⟩
  | .sub x y => ⟨.sub, [.reg x.val, .reg y.val]⟩
  | .shr x => ⟨.shr, [.reg x.val]⟩
  | .subn x y => ⟨.subn, [.reg x.val, .reg y.val]⟩
  | .shl x => ⟨.shl, [.reg x.val]⟩
  | .sneReg x y => ⟨.sne, [.reg x.val, .reg y.val]⟩

/-- An instruction is well formed when its written form is. -/
def Instr.wellFormed (i : Instr) : Bool := i.toLine.wellFormed

end Sys2Proof
end

