-- ==== Sys2Proof/Decode.lean ====
section
/-! DEFINITION. The decoder and the encoder (spec 30_encoding.md). Decoding is a pure, total function of the word
(R65) and reads no state. -/

namespace Sys2Proof

/-! ## Fields (R61, R62) -/

/-- `group(w) = w[15:12]`. -/
def fieldGroup (w : Word) : BitVec 4 := w.extractLsb' 12 4

/-- `x(w) = w[11:8]`. -/
def fieldX (w : Word) : RegIdx := (w.extractLsb' 8 4).toFin

/-- `y(w) = w[7:4]`. -/
def fieldY (w : Word) : RegIdx := (w.extractLsb' 4 4).toFin

/-- `subop(w) = w[3:0]`. -/
def fieldSubop (w : Word) : BitVec 4 := w.extractLsb' 0 4

/-- `kk(w) = w[7:0]`. -/
def fieldKk (w : Word) : Byte := w.extractLsb' 0 8

/-- `nnn(w) = w[11:0]`. -/
def fieldNnn (w : Word) : Addr := w.extractLsb' 0 12

/-! ## The decoded operation and the decoder (R65, R68) -/

/-- The result of decoding a word (R65): an instruction, or the word rejected by name. -/
inductive Op where
  | instr (i : Instr)
  | unimplemented (w : Word)
  deriving DecidableEq, Repr

/-- The group-8 sub-table (R67), with the number of SHL as an argument. Where that number is one of 0 to 7 the
earlier row wins, as "first match wins" (R66). DESIGN CHOICE (log 18, safe). -/
def decodeGroup8 (shlSubop : BitVec 4) (w : Word) : Op :=
  match (fieldSubop w).toNat with
  | 0 => .instr (.ldReg (fieldX w) (fieldY w))
  | 1 => .instr (.orReg (fieldX w) (fieldY w))
  | 2 => .instr (.andReg (fieldX w) (fieldY w))
  | 3 => .instr (.xorReg (fieldX w) (fieldY w))
  | 4 => .instr (.addReg (fieldX w) (fieldY w))
  | 5 => .instr (.sub (fieldX w) (fieldY w))
  | 6 => .instr (.shr (fieldX w))
  | 7 => .instr (.subn (fieldX w) (fieldY w))
  | n => if n = shlSubop.toNat then .instr (.shl (fieldX w)) else .unimplemented w

/-- `Decode(w)` (R68), with the behaviour parameters of 00_scope.md R10 as arguments: `strict` is
`STRICT_REG_SKIP_NIBBLE` (false: rows 7 and 11 of R66 use mask F000), `shlSubop` is `SHL_SUBOP`. -/
def decodeWith (strict : Bool) (shlSubop : BitVec 4) (w : Word) : Op :=
  if w = 0x0000#16 then .instr .halt
  else if w = 0x00EE#16 then .instr .ret
  else
    match (fieldGroup w).toNat with
    | 1 => .instr (.jp (fieldNnn w))
    | 2 => .instr (.call (fieldNnn w))
    | 3 => .instr (.seImm (fieldX w) (fieldKk w))
    | 4 => .instr (.sneImm (fieldX w) (fieldKk w))
    | 5 =>
      if strict = false ∨ fieldSubop w = 0#4 then .instr (.seReg (fieldX w) (fieldY w)) else .unimplemented w
    | 6 => .instr (.ldImm (fieldX w) (fieldKk w))
    | 7 => .instr (.addImm (fieldX w) (fieldKk w))
    | 8 => decodeGroup8 shlSubop w
    | 9 =>
      if strict = false ∨ fieldSubop w = 0#4 then .instr (.sneReg (fieldX w) (fieldY w)) else .unimplemented w
    | _ => .unimplemented w

/-- The decoder of a machine with the parameters `cfg` (00_scope.md R10). -/
def decodeFor (cfg : Config.Params) (w : Word) : Op := decodeWith cfg.strictRegSkipNibble cfg.shlSubop w

/-- The decoder with the default parameters, which "is what every other rule states" (00_scope.md R10). -/
def decode (w : Word) : Op := decodeWith Config.strictRegSkipNibble Config.shlSubop w

/-! ## The dispatch table as data (R66, R67) -/

/-- A row of the dispatch table: "a word w selects the row when `w & mask = match`" (R66). -/
structure OpcodeRow where
  pattern : Word
  mask : Word
  build : Word → Instr

/-- Rows 1 to 9 and 11 of R66 with row 10 opened into the rows of R67, in the table's order. -/
def opcodeTable (strict : Bool) (shlSubop : BitVec 4) : List OpcodeRow :=
  [⟨0x0000#16, 0xFFFF#16, fun _ => .halt⟩,
   ⟨0x00EE#16, 0xFFFF#16, fun _ => .ret⟩,
   ⟨0x1000#16, 0xF000#16, fun w => .jp (fieldNnn w)⟩,
   ⟨0x2000#16, 0xF000#16, fun w => .call (fieldNnn w)⟩,
   ⟨0x3000#16, 0xF000#16, fun w => .seImm (fieldX w) (fieldKk w)⟩,
   ⟨0x4000#16, 0xF000#16, fun w => .sneImm (fieldX w) (fieldKk w)⟩,
   ⟨0x5000#16, if strict then 0xF00F#16 else 0xF000#16, fun w => .seReg (fieldX w) (fieldY w)⟩,
   ⟨0x6000#16, 0xF000#16, fun w => .ldImm (fieldX w) (fieldKk w)⟩,
   ⟨0x7000#16, 0xF000#16, fun w => .addImm (fieldX w) (fieldKk w)⟩]
  ++
  [⟨0x8000#16, 0xF00F#16, fun w => .ldReg (fieldX w) (fieldY w)⟩,
   ⟨0x8001#16, 0xF00F#16, fun w => .orReg (fieldX w) (fieldY w)⟩,
   ⟨0x8002#16, 0xF00F#16, fun w => .andReg (fieldX w) (fieldY w)⟩,
   ⟨0x8003#16, 0xF00F#16, fun w => .xorReg (fieldX w) (fieldY w)⟩,
   ⟨0x8004#16, 0xF00F#16, fun w => .addReg (fieldX w) (fieldY w)⟩,
   ⟨0x8005#16, 0xF00F#16, fun w => .sub (fieldX w) (fieldY w)⟩,
   ⟨0x8006#16, 0xF00F#16, fun w => .shr (fieldX w)⟩,
   ⟨0x8007#16, 0xF00F#16, fun w => .subn (fieldX w) (fieldY w)⟩,
   ⟨0x8000#16 ||| shlSubop.setWidth 16, 0xF00F#16, fun w => .shl (fieldX w)⟩,
   ⟨0x9000#16, if strict then 0xF00F#16 else 0xF000#16, fun w => .sneReg (fieldX w) (fieldY w)⟩]

/-- The word selects the row (R66). -/
def OpcodeRow.selects (r : OpcodeRow) (w : Word) : Bool := decide (w &&& r.mask = r.pattern)

/-- Decoding by the table: "first match wins", row 12 is "anything else" (R66). -/
def decodeByTable (strict : Bool) (shlSubop : BitVec 4) (w : Word) : Op :=
  match (opcodeTable strict shlSubop).find? (fun r => r.selects w) with
  | some r => .instr (r.build w)
  | none => .unimplemented w

/-! ## The encoder (R61, R66, R67) -/

/-- A word of the form group, x, kk. -/
def wordXKk (group : BitVec 4) (x : RegIdx) (kk : Byte) : Word := group ++ BitVec.ofFin (w := 4) x ++ kk

/-- A word of the form group, x, y, subop. -/
def wordXY (group : BitVec 4) (x y : RegIdx) (subop : BitVec 4) : Word :=
  group ++ BitVec.ofFin (w := 4) x ++ BitVec.ofFin (w := 4) y ++ subop

/-- A word of the form group, nnn. -/
def wordNnn (group : BitVec 4) (nnn : Addr) : Word := group ++ nnn

/-- The word of an instruction. For SHR and SHL, whose y field is ignored (R64), y is 0 as R71's assembler
writes it (log 9). -/
def encode : Instr → Word
  | .halt => 0x0000#16
  | .ret => 0x00EE#16
  | .jp nnn => wordNnn 0x1#4 nnn
  | .call nnn => wordNnn 0x2#4 nnn
  | .seImm x kk => wordXKk 0x3#4 x kk
  | .sneImm x kk => wordXKk 0x4#4 x kk
  | .seReg x y => wordXY 0x5#4 x y 0x0#4
  | .ldImm x kk => wordXKk 0x6#4 x kk
  | .addImm x kk => wordXKk 0x7#4 x kk
  | .ldReg x y => wordXY 0x8#4 x y 0x0#4
  | .orReg x y => wordXY 0x8#4 x y 0x1#4
  | .andReg x y => wordXY 0x8#4 x y 0x2#4
  | .xorReg x y => wordXY 0x8#4 x y 0x3#4
  | .addReg x y => wordXY 0x8#4 x y 0x4#4
  | .sub x y => wordXY 0x8#4 x y 0x5#4
  | .shr x => wordXY 0x8#4 x 0 0x6#4
  | .subn x y => wordXY 0x8#4 x y 0x7#4
  | .shl x => wordXY 0x8#4 x 0 Config.shlSubop
  | .sneReg x y => wordXY 0x9#4 x y 0x0#4

/-! ## Bytes (20_memory.md R43) -/

/-- Two bytes joined big-endian: `(hi << 8) | lo` (00_scope.md R11, 20_memory.md R43). -/
def joinBytes (hi lo : Byte) : Word := (hi.setWidth 16 <<< 8) ||| lo.setWidth 16

/-- The first byte of a word, at the lower address (R43). -/
def highByte (w : Word) : Byte := w.extractLsb' 8 8

/-- The second byte of a word, at the higher address (R43). -/
def lowByte (w : Word) : Byte := w.extractLsb' 0 8

/-- The bytes of an instruction as memory holds them, "high byte first" (R71). -/
def encodeBytes (i : Instr) : List Byte := [highByte (encode i), lowByte (encode i)]

/-- Decoding from bytes: the operation and the bytes after it, or `none` where fewer than two bytes are left. -/
def decodeBytes : List Byte → Option (Op × List Byte)
  | hi :: lo :: rest => some (decode (joinBytes hi lo), rest)
  | _ => none

/-- The instruction the decoder reads from `w`, numbered as spec/opcode_table.json numbers its bits (one 16-bit
word, bit 0 its least significant); bits from `nbits` on are 0. -/
def decodeTableWord (nbits w : Nat) : Option Instr :=
  let word : Word := BitVec.ofNat 16 (w % 2 ^ nbits)
  match decodeBytes [highByte word, lowByte word] with
  | some (.instr i, _) => some i
  | _ => none

end Sys2Proof
end

