-- ==== Sys2Proof/Machine/State.lean ====
section
/-! DEFINITION. The state of CORE as plain data (spec 10_state.md R20), the fault kinds (60_exceptions.md R141),
the refusals, and the state after reset (10_state.md R36). -/

namespace Sys2Proof.Machine

/-- The five structural faults of CORE with the info each records (60_exceptions.md R141). A meaning raises one
by setting `status` to `Status.faulted` in its next state (`raiseFault`, R140). The outcome `.fault` is answered only
by `step` on a state whose status is already Faulted, and says which fault ended the run. DESIGN CHOICE (log 1).
Safe: nothing runs after it. -/
inductive Fault where
  /-- Raised by dispatch when the word matches no pattern; records the word (R143). Safe. -/
  | unimplementedInstruction (w : Word)
  /-- Raised by CALL when its target is below `EXEC_BASE`; records the target (R144). Safe. -/
  | reservedMemoryCall (target : Word)
  /-- Raised by CALL when sp is `STACK_DEPTH` (R145). Safe. -/
  | stackOverflow
  /-- Raised by RET when sp is 0 (R146). Safe. -/
  | stackUnderflow
  /-- Raised by the fetch unit when pc + 1 is not below `MEM_SIZE`; records the pc (R142). Safe. -/
  | outOfBoundsFetch (pc : Word)
  deriving DecidableEq, Repr

/-- Why the model gives no next state. -/
inductive Refusal where
  /-- An instruction without a meaning yet; answered by no arm of `exec`. Safe. -/
  | notModelled (mnemonic : String)
  /-- Answered by `step` when status is Idle or Halted: a step "requires status = Running" (40_cycle.md R85).
  DESIGN CHOICE (log 2). Safe. -/
  | notRunning
  /-- Answered by the host port for any operation but HostReadStatus while status is Running (10_state.md R33,
  R34). Safe as a refusal; log 15 says what it leaves out. -/
  | hostWhileRunning
  /-- Answered by the host port for Run() in a Faulted state: "the host must Reset() first" (40_cycle.md R87). Safe. -/
  | runAfterFault
  /-- Answered by the host port for a register index above 15: not a valid operation (10_state.md R33). Safe. -/
  | noSuchRegister
  /-- Answered by the host port for an address not below `MEM_SIZE`: not a valid operation (10_state.md R33). Safe. -/
  | noSuchAddress
  deriving DecidableEq, Repr

/-- The run status (10_state.md R31). -/
inductive Status where
  | idle
  | running
  | halted
  | faulted (f : Fault)
  deriving DecidableEq, Repr

/-- The memory array M (10_state.md R29): the bytes that are not 0, by strictly rising address. An unlisted
address reads as 0, the reset value of every byte (R36) (log 17). -/
abbrev Memory := List Host.Cell

/-- What an unlisted address reads as: 0, the reset value of every byte (10_state.md R36). -/
def Memory.unlisted : Byte := 0#8

/-- The canonical form: addresses strictly rising and below `MEM_SIZE`, and no entry equal to what an unlisted
address reads as. DESIGN CHOICE (log 17, safe). -/
abbrev Memory.wf (m : Memory) (memSize : Nat := Config.memSize) : Prop :=
  m.Pairwise (fun c d => c.1 < d.1) ∧ ∀ c ∈ m, c.1 < memSize ∧ c.2 ≠ Memory.unlisted

/-- "CORE's state is exactly this tuple" (10_state.md R20). `sp` is an integer in [0, STACK_DEPTH], both ends
included (R27, log 23). The state of a machine with other parameters is `State cfg` (00_scope.md R9); `State` alone is
the state with the default ones. -/
structure State (cfg : Config.Params := Config.defaults) where
  /-- V[0..15] (R21). -/
  regs : Vector Byte 16
  /-- The program counter (R23). -/
  pc : Word
  /-- S[0..STACK_DEPTH-1] (R26). -/
  stack : Vector Word cfg.stackDepth
  /-- The stack pointer, the index of the next free slot (R27). -/
  sp : Fin (cfg.stackDepth + 1)
  /-- M[0..MEM_SIZE-1] (R29). -/
  mem : Memory
  /-- The run status (R31). -/
  status : Status
  deriving DecidableEq, Repr

/-- The state after construction and after Reset (10_state.md R36, 70_reset_and_hazards.md R161), for any parameters. -/
def State.resetFor (cfg : Config.Params) : State cfg where
  regs := Vector.replicate 16 0#8
  pc := BitVec.ofNat 16 cfg.execBase
  stack := Vector.replicate cfg.stackDepth 0#16
  sp := 0
  mem := []
  status := .idle

/-- The state after reset with the default parameters. -/
def State.reset : State := State.resetFor Config.defaults

end Sys2Proof.Machine
end

