-- ==== Sys2Proof/Machine/Ops.lean ====
section
/-! DEFINITION. The primitives of the rules' pseudocode (spec 00_scope.md R12): memory, registers, call stack,
program counter, and the two ends of a run, `halt` and `raise`. -/

namespace Sys2Proof.Machine

variable {cfg : Config.Params}

/-! ## Memory -/

/-- The byte an address reads as: what is listed for it, or `Memory.unlisted`. -/
def Memory.read : Memory → Nat → Byte
  | [], _ => Memory.unlisted
  | c :: m, a => if c.1 = a then c.2 else Memory.read m a

/-- The memory without an entry for `a`. -/
def Memory.erase (m : Memory) (a : Nat) : Memory := m.filter (fun c => decide (c.1 ≠ a))

/-- The memory with `v` listed for `a`, in its place by address. -/
def Memory.insert : Memory → Nat → Byte → Memory
  | [], a, v => [(a, v)]
  | c :: m, a, v =>
    if a < c.1 then (a, v) :: c :: m
    else if a = c.1 then (a, v) :: m
    else c :: Memory.insert m a v

/-- `M[a] <- v`, keeping the canonical form: writing what an unlisted address reads as removes the entry. -/
def Memory.write (m : Memory) (a : Nat) (v : Byte) : Memory :=
  if v = Memory.unlisted then m.erase a else m.insert a v

/-- The byte of memory at an address, as the fetch unit and the host see it. -/
def State.readByte (s : State cfg) (a : Nat) : Byte := s.mem.read a

/-- `MemRead(a, 1)` (00_scope.md R12): the read path takes an address below `MEM_SIZE` (10_state.md R35); there
is no other byte to read. -/
def State.memRead (s : State cfg) (a : Nat) : Option Byte :=
  if a < cfg.memSize then some (s.readByte a) else none

/-- `MemWrite(a, 1, v)` (00_scope.md R12, 20_memory.md R48): the write path, for an address below `MEM_SIZE`. No
instruction calls it. -/
def State.memWrite (s : State cfg) (a : Nat) (v : Byte) : Option (State cfg) :=
  if a < cfg.memSize then some { s with mem := s.mem.write a v } else none

/-! ## Registers -/

/-- `V[i]` (00_scope.md R12). -/
def State.reg (s : State cfg) (i : RegIdx) : Byte := s.regs[i.val]

/-- `V[i] <- v` (00_scope.md R12). -/
def State.setReg (s : State cfg) (i : RegIdx) (v : Byte) : State cfg := { s with regs := s.regs.set i.val v }

/-! ## Program counter -/

/-- `pc <- t` (00_scope.md R12). -/
def State.setPc (s : State cfg) (t : Word) : State cfg := { s with pc := t }

/-- `pc <- pc + 2`: the pre-advance (40_cycle.md R83), and what a taken skip adds (42_skip.md R104). -/
def State.advance (s : State cfg) : State cfg := s.setPc (s.pc + BitVec.ofNat 16 Config.insnBytes)

/-! ## Call stack -/

/-- `S[j]` (00_scope.md R12). -/
def State.slot (s : State cfg) (j : Fin cfg.stackDepth) : Word := s.stack[j.val]

/-- `S[sp] <- w; sp <- sp + 1`, or `none` where sp is `STACK_DEPTH` (10_state.md R27, 41_control_flow.md R93). -/
def State.push (s : State cfg) (w : Word) : Option (State cfg) :=
  if h : s.sp.val < cfg.stackDepth then
    some { s with stack := s.stack.set s.sp.val w, sp := ⟨s.sp.val + 1, Nat.succ_lt_succ h⟩ }
  else none

/-- `sp <- sp - 1` and the value of `S[sp]`, or `none` where sp is 0 (10_state.md R27, 41_control_flow.md R91).
The slot keeps its value (R28, log 16). -/
def State.pop (s : State cfg) : Option (Word × State cfg) :=
  if h : 0 < s.sp.val then
    some (s.stack[s.sp.val - 1]'(by have := s.sp.isLt; omega),
      { s with sp := ⟨s.sp.val - 1, by have := s.sp.isLt; omega⟩ })
  else none

/-! ## The ends of a run -/

/-- The outcome of one step or one instruction. -/
abbrev Result (cfg : Config.Params := Config.defaults) := Host.Outcome (State cfg) Fault Refusal

/-- `raise Fault(kind, info)` (60_exceptions.md R140): the step and the run end with status Faulted(kind, info),
and no later write happens. CORE saves nothing, changes no mode and goes to no handler (R149), so this is the
whole of taking an exception; the state it leaves is that of R147 (log 12). -/
def raiseFault (f : Fault) (s : State cfg) : Result cfg := .next { s with status := .faulted f }

/-- `halt` (00_scope.md R12, 41_control_flow.md R90): the run ends with status Halted. -/
def haltRun (s : State cfg) : Result cfg := .next { s with status := .halted }

/-- Reset() (70_reset_and_hazards.md R160): every piece of state takes its reset value, whatever it held. There is
no return from a fault (60_exceptions.md R150): this is the only way out of Faulted. -/
def State.toReset (_ : State cfg) : State cfg := State.resetFor cfg

end Sys2Proof.Machine
end

