-- ==== Sys2Proof/Machine/Operands.lean ====
section
/-! DEFINITION. Operand assembly (spec 30_encoding.md R63): every immediate is unsigned and zero-extended. -/

namespace Sys2Proof.Machine

variable {cfg : Config.Params}

/-- A register operand x or y: `V[x]` (R63). -/
def regOperand (s : State cfg) (i : RegIdx) : Byte := s.reg i

/-- The immediate kk: "compared with, written to, or added to an 8-bit register as it stands" (R63). -/
def immOperand (kk : Byte) : Byte := kk

/-- The address nnn: "it becomes the 16-bit PC value `zext_16(nnn)`" (R63). -/
def targetOperand (nnn : Addr) : Word := nnn.setWidth 16

end Sys2Proof.Machine
end

