-- ==== Sys2Proof/Machine/Flags.lean ====
section
/-! DEFINITION. The ALU's results and flags (spec 44_alu.md R129, R130) and how they are written. Results and flags
are computed from the values at the start of the instruction. -/

namespace Sys2Proof.Machine

variable {cfg : Config.Params}

/-- A condition as the flag value 0 or 1 (10_state.md R22). -/
def flagByte (c : Bool) : Byte := if c then 1#8 else 0#8

/-- add: `(a + b) mod 256` (R130). -/
def addResult (a b : Byte) : Byte := BitVec.ofNat 8 (a.toNat + b.toNat)

/-- add: 1 iff `a + b >= 256` (R130). -/
def addFlag (a b : Byte) : Byte := flagByte (decide (256 ≤ a.toNat + b.toNat))

/-- subtract a - b: `(a - b) mod 256` (R130). -/
def subResult (a b : Byte) : Byte := a - b

/-- subtract a - b: 1 iff `a >= b`, no borrow (R130). -/
def subFlag (a b : Byte) : Byte := flagByte (decide (b.toNat ≤ a.toNat))

/-- shift right: `a >> 1`, logical (R130). -/
def shrResult (a : Byte) : Byte := a >>> 1

/-- shift right: bit 0 of a (R130). -/
def shrFlag (a : Byte) : Byte := a &&& 0x01#8

/-- shift left: `(a << 1) mod 256` (R130). -/
def shlResult (a : Byte) : Byte := a <<< 1

/-- shift left: bit 7 of a (R130). -/
def shlFlag (a : Byte) : Byte := (a >>> 7) &&& 0x01#8

/-- The writes of a flag-writing instruction: the result to V[x], then the flag to VF, so that with x = 0xF the
flag is what VF holds (44_alu.md R129). UNVERIFIED (log 5, unsafe): the order is the spec's decision D8. -/
def State.writeResultAndFlag (s : State cfg) (x : RegIdx) (result flag : Byte) : State cfg :=
  (s.setReg x result).setReg Config.flagReg flag

end Sys2Proof.Machine
end

