-- ==== Sys2Proof/Machine/Alu.lean ====
section
/-! DEFINITION. The two-register ALU family 8xy_ (spec 44_alu.md). Each meaning starts from the state after the
pre-advance (log 4) and reads its inputs before it writes (R129). -/

namespace Sys2Proof.Machine

variable {cfg : Config.Params}

/-- LD Vx, Vy (R120). -/
def execLdReg (x y : RegIdx) (s : State cfg) : Result cfg := .next (s.setReg x (regOperand s y))

/-- OR Vx, Vy (R121): VF is unchanged unless x = 0xF. UNVERIFIED (log 10, unsafe): D18. -/
def execOr (x y : RegIdx) (s : State cfg) : Result cfg := .next (s.setReg x (regOperand s x ||| regOperand s y))

/-- AND Vx, Vy (R122): VF is unchanged unless x = 0xF. UNVERIFIED (log 10, unsafe): D18. -/
def execAnd (x y : RegIdx) (s : State cfg) : Result cfg := .next (s.setReg x (regOperand s x &&& regOperand s y))

/-- XOR Vx, Vy (R123): VF is unchanged unless x = 0xF. UNVERIFIED (log 10, unsafe): D18. -/
def execXor (x y : RegIdx) (s : State cfg) : Result cfg := .next (s.setReg x (regOperand s x ^^^ regOperand s y))

/-- ADD Vx, Vy (R124): carry in VF (log 5). -/
def execAddReg (x y : RegIdx) (s : State cfg) : Result cfg :=
  let a := regOperand s x
  let b := regOperand s y
  .next (s.writeResultAndFlag x (addResult a b) (addFlag a b))

/-- SUB Vx, Vy (R125): Vx - Vy, NOT borrow in VF (log 5). -/
def execSub (x y : RegIdx) (s : State cfg) : Result cfg :=
  let a := regOperand s x
  let b := regOperand s y
  .next (s.writeResultAndFlag x (subResult a b) (subFlag a b))

/-- SHR Vx (R126): the source is Vx, the bit shifted out goes to VF (log 5, log 9). -/
def execShr (x : RegIdx) (s : State cfg) : Result cfg :=
  let a := regOperand s x
  .next (s.writeResultAndFlag x (shrResult a) (shrFlag a))

/-- SUBN Vx, Vy (R127): Vy - Vx into Vx, NOT borrow in VF (log 5). -/
def execSubn (x y : RegIdx) (s : State cfg) : Result cfg :=
  let a := regOperand s x
  let b := regOperand s y
  .next (s.writeResultAndFlag x (subResult b a) (subFlag b a))

/-- SHL Vx (R128): the source is Vx, the bit shifted out goes to VF (log 5, log 9). -/
def execShl (x : RegIdx) (s : State cfg) : Result cfg :=
  let a := regOperand s x
  .next (s.writeResultAndFlag x (shlResult a) (shlFlag a))

end Sys2Proof.Machine
end

