-- ==== Sys2Proof/Machine/ControlFlow.lean ====
section
/-! DEFINITION. HALT, RET, JP, CALL (spec 41_control_flow.md). Each meaning starts from the state after the
pre-advance: `pc` already holds pc0 + 2 (40_cycle.md R83, R84; log 4). -/

namespace Sys2Proof.Machine

variable {cfg : Config.Params}

/-- HALT (R90). -/
def execHalt (s : State cfg) : Result cfg := haltRun s

/-- RET (R91): StackUnderflow when sp = 0, else the pc is the popped return address, used as it stands. -/
def execRet (s : State cfg) : Result cfg :=
  match s.pop with
  | none => raiseFault .stackUnderflow s
  | some (target, s') => .next (s'.setPc target)

/-- JP nnn (R92): the target is not checked. UNVERIFIED (log 6 and log 7, unsafe): D6, D5. -/
def execJp (nnn : Addr) (s : State cfg) : Result cfg := .next (s.setPc (targetOperand nnn))

/-- CALL nnn (R93): ReservedMemoryCall, then StackOverflow (the order is D9, UNVERIFIED, log 11), then the push of
the already advanced pc. -/
def execCall (nnn : Addr) (s : State cfg) : Result cfg :=
  if (targetOperand nnn).toNat < cfg.execBase then raiseFault (.reservedMemoryCall (targetOperand nnn)) s
  else
    match s.push s.pc with
    | none => raiseFault .stackOverflow s
    | some s' => .next (s'.setPc (targetOperand nnn))

end Sys2Proof.Machine
end

