-- ==== Sys2Proof/Machine/Immediate.lean ====
section
/-! DEFINITION. LD Vx, kk and ADD Vx, kk (spec 43_immediate.md). Each meaning starts from the state after the
pre-advance (log 4). -/

namespace Sys2Proof.Machine

variable {cfg : Config.Params}

/-- LD Vx, kk (R110): a plain write, no flag. -/
def execLdImm (x : RegIdx) (kk : Byte) (s : State cfg) : Result cfg := .next (s.setReg x (immOperand kk))

/-- ADD Vx, kk (R111): VF is written on every execution, after the result (log 5). -/
def execAddImm (x : RegIdx) (kk : Byte) (s : State cfg) : Result cfg :=
  let a := regOperand s x
  .next (s.writeResultAndFlag x (addResult a (immOperand kk)) (addFlag a (immOperand kk)))

end Sys2Proof.Machine
end

