-- ==== Sys2Proof/Machine/Skip.lean ====
section
/-! DEFINITION. The conditional skips SE and SNE (spec 42_skip.md). Each meaning starts from the state after the
pre-advance (log 4). -/

namespace Sys2Proof.Machine

variable {cfg : Config.Params}

/-- A skip adds 2 to the advanced pc when its condition holds, and reads nothing of what it passes over (R104). -/
def skipIf (c : Bool) (s : State cfg) : Result cfg := .next (if c then s.advance else s)

/-- SE Vx, kk (R100). -/
def execSeImm (x : RegIdx) (kk : Byte) (s : State cfg) : Result cfg :=
  skipIf (decide (regOperand s x = immOperand kk)) s

/-- SNE Vx, kk (R101). -/
def execSneImm (x : RegIdx) (kk : Byte) (s : State cfg) : Result cfg :=
  skipIf (decide (regOperand s x ≠ immOperand kk)) s

/-- SE Vx, Vy (R102). -/
def execSeReg (x y : RegIdx) (s : State cfg) : Result cfg :=
  skipIf (decide (regOperand s x = regOperand s y)) s

/-- SNE Vx, Vy (R103). -/
def execSneReg (x y : RegIdx) (s : State cfg) : Result cfg :=
  skipIf (decide (regOperand s x ≠ regOperand s y)) s

end Sys2Proof.Machine
end

