-- ==== Sys2Proof/Machine/Cycle.lean ====
section
/-! DEFINITION. The execution cycle (spec 40_cycle.md): fetch check, fetch, decode, pre-advance, dispatch. -/

namespace Sys2Proof.Machine

variable {cfg : Config.Params}

/-- The fetch (R80, R81): the word at pc, big-endian, or `none` where the check `pc + 1 >= MEM_SIZE` fails
(20_memory.md R46). UNVERIFIED (log 14): the threshold is D4. -/
def fetchWord (s : State cfg) : Option Word :=
  if cfg.memSize ≤ s.pc.toNat + 1 then none
  else some (joinBytes (s.readByte s.pc.toNat) (s.readByte (s.pc.toNat + 1)))

/-- Execute(op) (R84, R85), from the state after the pre-advance; `run` is the dispatch to the rule of an instruction. -/
def executeWith (run : Instr → State cfg → Result cfg) (op : Op) (s : State cfg) : Result cfg :=
  match op with
  | .instr i => run i s
  | .unimplemented w => raiseFault (.unimplementedInstruction w) s

/-- `Step()` (R85), for a Running state. -/
def runningStepWith (run : Instr → State cfg → Result cfg) (s : State cfg) : Result cfg :=
  match fetchWord s with
  | none => raiseFault (.outOfBoundsFetch s.pc) s
  | some w => executeWith run (decodeFor cfg w) s.advance

/-- The step with its requirement "status = Running" (R85). In another status no step is taken (R87): Idle and
Halted are refused, DESIGN CHOICE (log 2, safe); Faulted answers the fault that ended the run, DESIGN CHOICE
(log 1, safe). -/
def cycleWith (run : Instr → State cfg → Result cfg) (s : State cfg) : Result cfg :=
  match s.status with
  | .running => runningStepWith run s
  | .idle => .refused .notRunning
  | .halted => .refused .notRunning
  | .faulted f => .fault f

/-! ## The machine with the default parameters -/

/-- Execute(op) through the dispatch of Machine/Dispatch.lean. -/
def execute (op : Op) (s : State) : Result := executeWith exec op s

/-- The step of the machine with the default parameters. -/
def cycle (s : State) : Result := cycleWith exec s

/-! ## The machine with any parameters (00_scope.md R9, R10) -/

/-- Dispatch (R84) for any parameters. With the default ones it is `exec` (`exec_eq_execFor`, Laws/Step.lean). -/
def execFor (i : Instr) (s : State cfg) : Result cfg :=
  match i with
  | .halt => execHalt s
  | .ret => execRet s
  | .jp nnn => execJp nnn s
  | .call nnn => execCall nnn s
  | .seImm x kk => execSeImm x kk s
  | .sneImm x kk => execSneImm x kk s
  | .seReg x y => execSeReg x y s
  | .sneReg x y => execSneReg x y s
  | .ldImm x kk => execLdImm x kk s
  | .addImm x kk => execAddImm x kk s
  | .ldReg x y => execLdReg x y s
  | .orReg x y => execOr x y s
  | .andReg x y => execAnd x y s
  | .xorReg x y => execXor x y s
  | .addReg x y => execAddReg x y s
  | .sub x y => execSub x y s
  | .shr x => execShr x s
  | .subn x y => execSubn x y s
  | .shl x => execShl x s

/-- One step of the machine with any parameters; with the default ones it is `step` (`step_eq_stepFor`, Laws/Step.lean). -/
def stepFor (s : State cfg) : Result cfg := cycleWith execFor s

/-! ## Placing a word -/

/-- Where a fetch can take place: the pc itself where its fetch check passes, else `EXEC_BASE`. -/
def fetchablePc (s : State cfg) : Word :=
  if cfg.memSize ≤ s.pc.toNat + 1 then BitVec.ofNat 16 cfg.execBase else s.pc

/-- The state with the two bytes of a word stored at a fetchable pc and a run in progress (70_reset_and_hazards.md
R163 steps 2 and 4; log 3). -/
def placeWord (s : State cfg) (word : Word) : State cfg :=
  let a := (fetchablePc s).toNat
  { s with
    pc := fetchablePc s
    mem := (s.mem.write a (highByte word)).write (a + 1) (lowByte word)
    status := .running }

end Sys2Proof.Machine
end

