-- ==== Sys2Proof/Machine/Step.lean ====
section
/-! DEFINITION. The step (spec 40_cycle.md R85), and the placing of one instruction where it fetches. -/

namespace Sys2Proof.Machine

/-- One step of CORE (40_cycle.md R85, R87): `cycle` of Machine/Cycle.lean. -/
def step (s : State) : Host.Outcome State Fault Refusal := cycle s

/-- `s` with the instruction word `w` (numbered as the opcode table numbers it, bits from `nbits` on 0) stored at
the pc and status Running, so that `step` fetches and runs it (log 3). -/
def State.withFetchWord (s : State) (nbits w : Nat) : State :=
  placeWord s (BitVec.ofNat 16 (w % 2 ^ nbits))

end Sys2Proof.Machine
end

