-- ==== Sys2Proof/Machine/HostPort.lean ====
section
/-! DEFINITION. The host port (spec 10_state.md R33, R34): what the host can do to CORE between runs. The host is no
agent of `step`; each operation is a function of the state (log 15). -/

namespace Sys2Proof.Machine

variable {cfg : Config.Params}

/-- The host operations of R33. Indices and addresses are plain numbers: one out of range "is not a valid
operation; the model refuses it" (log 22). -/
inductive HostOp where
  | writeReg (i : Nat) (v : Byte)
  | readReg (i : Nat)
  | writeMem (a : Nat) (v : Byte)
  | readMem (a : Nat)
  | readStatus
  | readPc
  | readSp
  | reset
  | run
  deriving DecidableEq, Repr

/-- What an operation returns to the host (R33). -/
inductive HostReply where
  | done
  | byte (v : Byte)
  | status (st : Status)
  | pc (w : Word)
  | sp (n : Nat)
  deriving DecidableEq, Repr

/-- The state after an operation and its reply, or a refusal by name. -/
abbrev HostResult (cfg : Config.Params := Config.defaults) := Host.Outcome (State cfg × HostReply) Fault Refusal

/-- "Allowed when status != Running" (R33, R34): otherwise the host has no move (40_cycle.md R87). -/
def whenNotRunning (s : State cfg) (r : HostResult cfg) : HostResult cfg :=
  match s.status with
  | .running => .refused .hostWhileRunning
  | _ => r

/-- HostWriteReg(i, v). -/
def hostWriteReg (i : Nat) (v : Byte) (s : State cfg) : HostResult cfg :=
  whenNotRunning s
    (if h : i < 16 then .next (s.setReg ⟨i, h⟩ v, .done) else .refused .noSuchRegister)

/-- HostReadReg(i). -/
def hostReadReg (i : Nat) (s : State cfg) : HostResult cfg :=
  whenNotRunning s
    (if h : i < 16 then .next (s, .byte (s.reg ⟨i, h⟩)) else .refused .noSuchRegister)

/-- HostWriteMem(a, v): the only user of the memory's write path (20_memory.md R48). -/
def hostWriteMem (a : Nat) (v : Byte) (s : State cfg) : HostResult cfg :=
  whenNotRunning s
    (match s.memWrite a v with
     | some s' => .next (s', .done)
     | none => .refused .noSuchAddress)

/-- HostReadMem(a). -/
def hostReadMem (a : Nat) (s : State cfg) : HostResult cfg :=
  whenNotRunning s
    (match s.memRead a with
     | some v => .next (s, .byte v)
     | none => .refused .noSuchAddress)

/-- HostReadStatus(): always allowed. -/
def hostReadStatus (s : State cfg) : HostResult cfg := .next (s, .status s.status)

/-- HostReadPC(), "for observation only". -/
def hostReadPc (s : State cfg) : HostResult cfg := whenNotRunning s (.next (s, .pc s.pc))

/-- HostReadSP(), "for observation only". -/
def hostReadSp (s : State cfg) : HostResult cfg := whenNotRunning s (.next (s, .sp s.sp.val))

/-- Reset() (70_reset_and_hazards.md R160): allowed whenever status is not Running. -/
def hostReset (s : State cfg) : HostResult cfg := whenNotRunning s (.next (s.toReset, .done))

/-- The start of Run() (40_cycle.md R86): status becomes Running; the loop is `step` again and again. From Faulted
it is refused (R87; D10, log 12). -/
def hostRun (s : State cfg) : HostResult cfg :=
  match s.status with
  | .running => .refused .hostWhileRunning
  | .faulted _ => .refused .runAfterFault
  | .idle => .next ({ s with status := .running }, .done)
  | .halted => .next ({ s with status := .running }, .done)

/-- One host operation (R33). -/
def hostOp (op : HostOp) (s : State cfg) : HostResult cfg :=
  match op with
  | .writeReg i v => hostWriteReg i v s
  | .readReg i => hostReadReg i s
  | .writeMem a v => hostWriteMem a v s
  | .readMem a => hostReadMem a s
  | .readStatus => hostReadStatus s
  | .readPc => hostReadPc s
  | .readSp => hostReadSp s
  | .reset => hostReset s
  | .run => hostRun s

end Sys2Proof.Machine
end

