-- ==== Sys2Proof/Machine/Assembler.lean ====
section
/-! DEFINITION. The assembler syntax (spec 30_encoding.md R71) and the placing of a program's words (20_memory.md R43,
70_reset_and_hazards.md R163). Labels are no part of the syntax and there are no pseudo-instructions (R71). -/

namespace Sys2Proof.Machine

/-! ## A line to its word -/

/-- The instruction a line stands for, where it is one; `DW` places a word that need be no instruction. -/
def toInstr (l : AsmLine) : Option Instr :=
  match l.mnemonic, l.operands with
  | .halt, [] => some .halt
  | .ret, [] => some .ret
  | .jp, [.num n] => some (.jp (BitVec.ofNat 12 n))
  | .call, [.num n] => some (.call (BitVec.ofNat 12 n))
  | .se, [.reg x, .num k] => some (.seImm (Fin.ofNat 16 x) (BitVec.ofNat 8 k))
  | .se, [.reg x, .reg y] => some (.seReg (Fin.ofNat 16 x) (Fin.ofNat 16 y))
  | .sne, [.reg x, .num k] => some (.sneImm (Fin.ofNat 16 x) (BitVec.ofNat 8 k))
  | .sne, [.reg x, .reg y] => some (.sneReg (Fin.ofNat 16 x) (Fin.ofNat 16 y))
  | .ld, [.reg x, .num k] => some (.ldImm (Fin.ofNat 16 x) (BitVec.ofNat 8 k))
  | .ld, [.reg x, .reg y] => some (.ldReg (Fin.ofNat 16 x) (Fin.ofNat 16 y))
  | .add, [.reg x, .num k] => some (.addImm (Fin.ofNat 16 x) (BitVec.ofNat 8 k))
  | .add, [.reg x, .reg y] => some (.addReg (Fin.ofNat 16 x) (Fin.ofNat 16 y))
  | .or, [.reg x, .reg y] => some (.orReg (Fin.ofNat 16 x) (Fin.ofNat 16 y))
  | .and, [.reg x, .reg y] => some (.andReg (Fin.ofNat 16 x) (Fin.ofNat 16 y))
  | .xor, [.reg x, .reg y] => some (.xorReg (Fin.ofNat 16 x) (Fin.ofNat 16 y))
  | .sub, [.reg x, .reg y] => some (.sub (Fin.ofNat 16 x) (Fin.ofNat 16 y))
  | .subn, [.reg x, .reg y] => some (.subn (Fin.ofNat 16 x) (Fin.ofNat 16 y))
  | .shr, [.reg x] => some (.shr (Fin.ofNat 16 x))
  | .shr, [.reg x, .reg _] => some (.shr (Fin.ofNat 16 x))
  | .shl, [.reg x] => some (.shl (Fin.ofNat 16 x))
  | .shl, [.reg x, .reg _] => some (.shl (Fin.ofNat 16 x))
  | _, _ => none

/-- The y field that `SHR Vx, Vy` and `SHL Vx, Vy` write (R71), which decoding ignores (R64). -/
def ignoredYBits (l : AsmLine) : Word :=
  match l.mnemonic, l.operands with
  | .shr, [.reg _, .reg y] => BitVec.ofNat 16 y <<< 4
  | .shl, [.reg _, .reg y] => BitVec.ofNat 16 y <<< 4
  | _, _ => 0#16

/-- The word of a line (R71), or `none` where "the assembler refuses the line". -/
def assemble (l : AsmLine) : Option Word :=
  if l.wellFormed then
    match l.mnemonic, l.operands with
    | .dw, [.num w] => some (BitVec.ofNat 16 w)
    | _, _ => (toInstr l).map (fun i => encode i ||| ignoredYBits l)
  else none

/-! ## Text to a line

R71 fixes the operands' spelling; that a line is a mnemonic in capitals, blanks, and operands parted by commas
with or without blanks around them is read off its table, and the word of `DW` is a number like any other.
DESIGN CHOICE (log 21, safe). -/

/-- A character as one of the `count` digits that begin with `first`: its place among them. -/
def digitAmong (first : Char) (count : Nat) (c : Char) : Option Nat :=
  if first ≤ c ∧ c.toNat < first.toNat + count then some (c.toNat - first.toNat) else none

/-- A decimal digit. -/
def decimalDigit (c : Char) : Option Nat := digitAmong '0' 10 c

/-- The last character of a register's name, and a digit of a number in hex: 0 to 9, then A to F in either case. -/
def registerDigit (c : Char) : Option Nat :=
  decimalDigit c <|> ((digitAmong 'A' 6 c <|> digitAmong 'a' 6 c).map (10 + ·))

/-- The number a string of digits spells in a base, most significant digit first. -/
def numeral (base : Nat) (digit : Char → Option Nat) (cs : List Char) : Option Nat :=
  (cs.mapM digit).map (fun ds => ds.foldl (fun n d => n * base + d) 0)

/-- An operand: "a register is `V0` to `V9`, `VA` to `VF` (case-insensitive; the source's `r0` means `V0`)", a number
is "in hex (`0x` prefix) or decimal" (R71). R71 says the latter of kk and nnn alone and gives the word of DW as
`0xhhhh`; that the word of DW is any number so written, in either base and with any count of digits, is the model's.
DESIGN CHOICE (log 21, safe). -/
def parseOperand : List Char → Option Operand
  | 'V' :: [c] => (registerDigit c).map .reg
  | 'v' :: [c] => (registerDigit c).map .reg
  | 'r' :: [c] => (registerDigit c).map .reg
  | '0' :: 'x' :: c :: cs => (numeral 16 registerDigit (c :: cs)).map .num
  | c :: cs => (numeral 10 decimalDigit (c :: cs)).map .num
  | [] => none

/-- The mnemonics of R71. -/
def parseMnemonic (cs : List Char) : Option Mnemonic :=
  (([(['H', 'A', 'L', 'T'], Mnemonic.halt), (['R', 'E', 'T'], .ret), (['J', 'P'], .jp),
     (['C', 'A', 'L', 'L'], .call), (['S', 'E'], .se), (['S', 'N', 'E'], .sne), (['L', 'D'], .ld),
     (['A', 'D', 'D'], .add), (['O', 'R'], .or), (['A', 'N', 'D'], .and), (['X', 'O', 'R'], .xor),
     (['S', 'U', 'B'], .sub), (['S', 'H', 'R'], .shr), (['S', 'U', 'B', 'N'], .subn),
     (['S', 'H', 'L'], .shl), (['D', 'W'], .dw)]
    : List (List Char × Mnemonic)).find? (fun p => decide (p.1 = cs))).map (fun p => p.2)

/-- A string without the blanks at its ends. -/
def trimBlanks (cs : List Char) : List Char :=
  ((cs.dropWhile (fun c => decide (c = ' '))).reverse.dropWhile (fun c => decide (c = ' '))).reverse

/-- The parts of a string between commas. -/
def splitCommas : List Char → List (List Char)
  | [] => [[]]
  | c :: cs =>
    match splitCommas cs with
    | part :: parts => if c = ',' then [] :: part :: parts else (c :: part) :: parts
    | [] => [[c]]

/-- The operands of a line. -/
def parseOperands (cs : List Char) : Option (List Operand) :=
  if trimBlanks cs = [] then some [] else (splitCommas cs).mapM (fun p => parseOperand (trimBlanks p))

/-- A line of text (R71). -/
def parseLine (text : List Char) : Option AsmLine :=
  let cs := trimBlanks text
  match parseMnemonic (cs.takeWhile (fun c => decide (c ≠ ' '))),
      parseOperands (cs.dropWhile (fun c => decide (c ≠ ' '))) with
  | some m, some ops => some ⟨m, ops⟩
  | _, _ => none

/-- The word of a line of text. -/
def assembleText (text : List Char) : Option Word := (parseLine text).bind assemble

/-! ## A program to memory -/

variable {cfg : Config.Params}

/-- Bytes at consecutive addresses, through the memory's write path; `none` where they do not all fit (log 22). -/
def loadBytes : List Byte → Nat → State cfg → Option (State cfg)
  | [], _, s => some s
  | b :: bs, a, s => (s.memWrite a b).bind (loadBytes bs (a + 1))

/-- A program's words "as two bytes, high byte first, at consecutive even addresses from EXEC_BASE" (R71). -/
def loadWords (ws : List Word) (s : State cfg) : Option (State cfg) :=
  loadBytes (ws.flatMap (fun w => [highByte w, lowByte w])) cfg.execBase s

end Sys2Proof.Machine
end

