-- ==== Sys2Proof/Machine/Run.lean ====
section
/-! DEFINITION. The run loop (spec 40_cycle.md R86, R88). A run that never ends has no outcome, so the loop runs
under fuel and says when the fuel is spent (log 20). -/

namespace Sys2Proof.Machine

variable {cfg : Config.Params}

/-- What Run() returns (R86), with the state it leaves; `outOfFuel` is the model's own outcome, "never as Halted or
as a fault" (R88). -/
inductive RunResult (cfg : Config.Params := Config.defaults) where
  | success (s : State cfg)
  | failure (f : Fault) (s : State cfg)
  | outOfFuel (s : State cfg)
  | refused (r : Refusal)
  deriving DecidableEq, Repr

/-- The loop of R86, for at most `fuel` steps, from a Running state. -/
def runLoop : Nat → State cfg → RunResult cfg
  | 0, s => .outOfFuel s
  | fuel + 1, s =>
    match stepFor s with
    | .next t =>
      match t.status with
      | .halted => .success t
      | .faulted f => .failure f t
      | .running => runLoop fuel t
      | .idle => .refused .notRunning
    | .fault f => .failure f s
    | .refused r => .refused r

/-- `Run()` (R86): "require status in {Idle, Halted}", status becomes Running, then the loop. -/
def runFor (fuel : Nat) (s : State cfg) : RunResult cfg :=
  match hostRun s with
  | .next (t, _) => runLoop fuel t
  | .fault f => .failure f s
  | .refused r => .refused r

/-- The code of a fault kind (60_exceptions.md R141). UNVERIFIED (log 24, unsafe): the numbers are D11, and no
claim should rest on them. -/
def faultCode : Fault → Nat
  | .unimplementedInstruction _ => 1
  | .reservedMemoryCall _ => 2
  | .stackOverflow => 3
  | .stackUnderflow => 4
  | .outOfBoundsFetch _ => 5

/-- The code of a run's end: 0 for the normal halt, the fault's code for a failure, none while no run has ended
(60_exceptions.md R141; log 24). -/
def outcomeCode : Status → Option Nat
  | .halted => some 0
  | .faulted f => some (faultCode f)
  | .idle => none
  | .running => none

end Sys2Proof.Machine
end

