-- ==== Sys2Proof/Safety.lean ====
section
/-! DEFINITION. The terms claims about CORE are stated in: the invariant, what a group of instructions may change,
and runs as sequences of steps. -/

namespace Sys2Proof.Machine

variable {cfg : Config.Params}

/-- The invariant of CORE: the pc is at most `max(MEM_SIZE + 2, 0xFFF)` (10_state.md R24), every return address still to
be popped is at most `MEM_SIZE` (R24's argument: it was an advanced pc), and, which is the model's own clause and no
rule of the spec, memory is in its canonical form (log 17). That sp is in [0, STACK_DEPTH] (R27) is in its type. -/
structure State.Inv (s : State cfg) : Prop where
  memory : s.mem.wf cfg.memSize
  pc_le : s.pc.toNat ≤ max (cfg.memSize + 2) 0xFFF
  returns_le : ∀ j : Fin cfg.stackDepth, j.val < s.sp.val → (s.slot j).toNat ≤ cfg.memSize

/-- The registers, the stack and its pointer, and every byte of memory read as before: what JP, HALT and the skips
leave unchanged. -/
structure State.SameData (s t : State cfg) : Prop where
  regs : ∀ r, t.reg r = s.reg r
  slots : ∀ j, t.slot j = s.slot j
  sp : t.sp = s.sp
  bytes : ∀ a, t.readByte a = s.readByte a

/-- All but the registers is as before: what the immediate and ALU instructions leave unchanged. (The pc is the
advanced pc that the instruction started from.) -/
structure State.SameButRegs (s t : State cfg) : Prop where
  pc : t.pc = s.pc
  slots : ∀ j, t.slot j = s.slot j
  sp : t.sp = s.sp
  bytes : ∀ a, t.readByte a = s.readByte a
  status : t.status = s.status

/-- The six instructions that write VF as a side effect (10_state.md R22). -/
def flagWriter : Instr → Bool
  | .addImm _ _ => true
  | .addReg _ _ => true
  | .sub _ _ => true
  | .shr _ => true
  | .subn _ _ => true
  | .shl _ => true
  | .halt => false
  | .ret => false
  | .jp _ => false
  | .call _ => false
  | .seImm _ _ => false
  | .sneImm _ _ => false
  | .seReg _ _ => false
  | .ldImm _ _ => false
  | .ldReg _ _ => false
  | .orReg _ _ => false
  | .andReg _ _ => false
  | .xorReg _ _ => false
  | .sneReg _ _ => false

/-- The register an instruction names as its destination V[x] (43_immediate.md, 44_alu.md). -/
def destination : Instr → Option RegIdx
  | .ldImm x _ => some x
  | .addImm x _ => some x
  | .ldReg x _ => some x
  | .orReg x _ => some x
  | .andReg x _ => some x
  | .xorReg x _ => some x
  | .addReg x _ => some x
  | .sub x _ => some x
  | .shr x => some x
  | .subn x _ => some x
  | .shl x => some x
  | .halt => none
  | .ret => none
  | .jp _ => none
  | .call _ => none
  | .seImm _ _ => none
  | .sneImm _ _ => none
  | .seReg _ _ => none
  | .sneReg _ _ => none

/-- The pc and every return address still to be popped are even (10_state.md R25). -/
def EvenAddresses (s : State) : Prop :=
  s.pc.toNat % 2 = 0 ∧ ∀ j : Fin Config.stackDepth, j.val < s.sp.val → (s.slot j).toNat % 2 = 0

/-- `t` is reached from `s` by exactly `n` steps. -/
inductive StepsTo : Nat → State → State → Prop where
  | refl (s : State) : StepsTo 0 s s
  | next {n : Nat} {s t u : State} : step s = .next t → StepsTo n t u → StepsTo (n + 1) s u

/-- `t` is reached from `s` by steps, and sp is above `d` in every state on the way, both ends included. -/
inductive StaysAbove (d : Nat) : State → State → Prop where
  | refl {s : State} : d < s.sp.val → StaysAbove d s s
  | tail {s t u : State} : StaysAbove d s t → step t = .next u → d < u.sp.val → StaysAbove d s u

/-- The step of a Running state ends its run with a structural fault. -/
def FaultsNext (s : State) (f : Fault) : Prop := ∃ t, step s = .next t ∧ t.status = .faulted f

end Sys2Proof.Machine
end

