-- ==== Sys2Proof/Certificates/Slice0/Obligations.lean ====
section
/-! DEFINITION. The statements about CORE for the provers. `exec` starts from the state after the pre-advance: its
`s.pc` is pc0 + 2 (spec 40_cycle.md R83, R84; log 4). A clause that rests on one of the spec's own decisions D<n>
(92_eei_decisions.md) names it. -/

open Sys2Proof Sys2Proof.Machine

/-! ## Reset -/

/-- R161: construction is the state that Reset() gives, from whatever state: all registers, memory and stack slots
zero, the stack empty, the pc at EXEC_BASE (0x200). -/
def Obligations.ConstructionIsZeroedAtExecBase : Prop :=
  (∀ r, State.reset.reg r = 0#8) ∧ (∀ a, State.reset.readByte a = 0#8) ∧ (∀ j, State.reset.slot j = 0#16) ∧
  State.reset.sp.val = 0 ∧ State.reset.pc.toNat = Config.execBase ∧ Config.execBase = 0x200 ∧
  ∀ s : State, s.status ≠ .running → hostOp .reset s = .next (State.reset, .done)

/-- R160: Reset() sets every piece of state to its reset value, is allowed whenever status is not Running, and is
the only way out of Faulted (no other host operation and no step leaves it). -/
def Obligations.ResetIsTheOnlyWayOutOfFaulted : Prop :=
  (∀ s : State, s.status ≠ .running → ∃ t, hostOp .reset s = .next (t, .done) ∧ (∀ r, t.reg r = 0#8) ∧
    (∀ a, t.readByte a = 0#8) ∧ (∀ j, t.slot j = 0#16) ∧ t.sp.val = 0 ∧ t.pc.toNat = Config.execBase ∧
    t.status = .idle) ∧
  (∀ s : State, s.status = .running → ∀ p, hostOp .reset s ≠ .next p) ∧
  (∀ (s : State) (f : Fault), s.status = .faulted f →
    (∀ op t r, op ≠ .reset → hostOp op s = .next (t, r) → t.status = .faulted f) ∧ ∀ t, step s ≠ .next t)

/-- Reset is independent of history and idempotent (70_reset_and_hazards.md R162, which the spec marks derived). -/
def Obligations.ResetForgetsHistory : Prop :=
  ∀ s u t t' : State, ∀ r r', hostOp .reset s = .next (t, r) → hostOp .reset u = .next (t', r') →
    t = t' ∧ hostOp .reset t = .next (t, r)

/-! ## Fetch and the step -/

/-- R81: where the fetch check passes, the fetched word is M[pc] and M[pc+1] joined big-endian. -/
def Obligations.FetchJoinsTwoBytesBigEndian : Prop :=
  ∀ s : State, s.pc.toNat + 1 < Config.memSize →
    ∃ w, fetchWord s = some w ∧
      w.toNat = (s.readByte s.pc.toNat).toNat * 256 + (s.readByte (s.pc.toNat + 1)).toNat

/-- A step whose fetch check fails raises OutOfBoundsFetch(pc) and changes nothing else (40_cycle.md R80). The threshold
of the check, pc + 1 >= MEM_SIZE, is the spec's own decision D4 (20_memory.md R46; log 14). -/
def Obligations.FailedFetchCheckFaultsAndChangesNothingElse : Prop :=
  ∀ s : State, s.status = .running →
    (Config.memSize ≤ s.pc.toNat + 1 →
      ∃ t, step s = .next t ∧ t.status = .faulted (.outOfBoundsFetch s.pc) ∧ t.pc = s.pc ∧ s.SameData t) ∧
    (s.pc.toNat + 1 < Config.memSize → ∀ f, ¬ FaultsNext s (.outOfBoundsFetch f))

/-- R83: after fetch and decode and before the operation's own effect the pc is increased by 2, for every decoded
operation, and the addition does not overflow. -/
def Obligations.EveryOperationStartsFromAdvancedPc : Prop :=
  ∀ (s : State) (w : Word), s.status = .running → fetchWord s = some w →
    ∃ p : Word, p.toNat = s.pc.toNat + 2 ∧ step s = execute (decode w) (s.setPc p)

/-- A step runs the decoded instruction: where the two bytes at the pc decode to i, the step is `exec i` from the
advanced pc (40_cycle.md R84, R85). -/
def Obligations.StepRunsTheDecodedInstruction : Prop :=
  ∀ (s : State) (i : Instr), s.status = .running → s.pc.toNat + 1 < Config.memSize →
    decode (joinBytes (s.readByte s.pc.toNat) (s.readByte (s.pc.toNat + 1))) = .instr i →
    step s = exec i (s.setPc (s.pc + 2#16))

/-- An unimplemented word faults with that very word, the pc advanced and nothing else changed (60_exceptions.md R143,
R147; the pc after a fault is D10). -/
def Obligations.UnimplementedWordFaultsWithThatWord : Prop :=
  ∀ (s : State) (w v : Word), s.status = .running → fetchWord s = some w → decode w = .unimplemented v →
    v = w ∧ ∃ t, step s = .next t ∧ t.status = .faulted (.unimplementedInstruction w) ∧
      t.pc.toNat = s.pc.toNat + 2 ∧ s.SameData t

/-! ## Control flow -/

/-- R90: HALT is the word 0000, ends the run with Halted, leaves the pc at pc0 + 2 and everything else unchanged, at
any address; a later Run() resumes there. -/
def Obligations.HaltEndsTheRunNormally : Prop :=
  (∀ w, decode w = .instr .halt ↔ w = 0x0000#16) ∧
  (∀ s : State, ∃ t, exec .halt s = .next t ∧ t.status = .halted ∧ t.pc = s.pc ∧ s.SameData t) ∧
  (∀ s : State, s.status = .running → fetchWord s = some 0x0000#16 →
    ∃ t, step s = .next t ∧ t.status = .halted ∧ t.pc.toNat = s.pc.toNat + 2 ∧ s.SameData t ∧
      hostOp .run t = .next ({ t with status := .running }, .done))

/-- R91: RET is the word 00EE; with sp = 0 it raises StackUnderflow and changes nothing else; else sp decreases by
one, the pc becomes the popped slot as it stands, and the slots, registers and memory are unchanged. -/
def Obligations.RetPopsTheReturnAddress : Prop :=
  (∀ w, decode w = .instr .ret ↔ w = 0x00EE#16) ∧
  (∀ s : State, 0 < s.sp.val → ∃ t, exec .ret s = .next t ∧ t.sp.val + 1 = s.sp.val ∧
    (∀ j : Fin Config.stackDepth, j.val + 1 = s.sp.val → t.pc = s.slot j) ∧ (∀ j, t.slot j = s.slot j) ∧
    (∀ r, t.reg r = s.reg r) ∧ (∀ a, t.readByte a = s.readByte a) ∧ t.status = s.status) ∧
  (∀ s : State, s.sp.val = 0 → ∃ t, exec .ret s = .next t ∧ t.status = .faulted .stackUnderflow ∧ t.pc = s.pc ∧
    s.SameData t)

/-- JP nnn sets the pc to nnn and changes nothing else, for every target (41_control_flow.md R92; that no target is
checked is D5 and D6). -/
def Obligations.JpSetsThePcToItsTarget : Prop :=
  ∀ (s : State) (nnn : Addr),
    decode (BitVec.ofNat 16 (0x1000 + nnn.toNat)) = .instr (.jp nnn) ∧
    ∃ t, exec (.jp nnn) s = .next t ∧ t.pc.toNat = nnn.toNat ∧ s.SameData t ∧ t.status = s.status

/-- CALL nnn, with a target at or above EXEC_BASE and room on the stack, pushes the advanced pc and goes to nnn; no
other slot, no register and no byte of memory changes (41_control_flow.md R93; odd targets are D5). -/
def Obligations.CallPushesTheAdvancedPc : Prop :=
  ∀ (s : State) (nnn : Addr),
    decode (BitVec.ofNat 16 (0x2000 + nnn.toNat)) = .instr (.call nnn) ∧
    (Config.execBase ≤ nnn.toNat → s.sp.val < Config.stackDepth →
      ∃ t, exec (.call nnn) s = .next t ∧ t.pc.toNat = nnn.toNat ∧ t.sp.val = s.sp.val + 1 ∧
        (∀ j : Fin Config.stackDepth, t.slot j = if j.val = s.sp.val then s.pc else s.slot j) ∧
        (∀ r, t.reg r = s.reg r) ∧ (∀ a, t.readByte a = s.readByte a) ∧ t.status = s.status)

/-- CALL below EXEC_BASE raises ReservedMemoryCall, also with a full stack (the priority is D9); at or above it with
sp = STACK_DEPTH it raises StackOverflow; either way nothing else changes (60_exceptions.md R144, R145, R147, R148). -/
def Obligations.CallFaultsOnReservedTargetThenOnFullStack : Prop :=
  ∀ (s : State) (nnn : Addr),
    (nnn.toNat < Config.execBase → ∃ t, exec (.call nnn) s = .next t ∧
      t.status = .faulted (.reservedMemoryCall (nnn.setWidth 16)) ∧ t.pc = s.pc ∧ s.SameData t) ∧
    (Config.execBase ≤ nnn.toNat → s.sp.val = Config.stackDepth → ∃ t, exec (.call nnn) s = .next t ∧
      t.status = .faulted .stackOverflow ∧ t.pc = s.pc ∧ s.SameData t)

/-- Call and return pair up: a CALL at a that succeeds, and then, after steps that keep sp above its value before the
call, a RET with sp one above that value, set the pc to a + 2 and restore sp (41_control_flow.md R94, which the spec
marks derived). -/
def Obligations.MatchingReturnGoesBackBehindItsCall : Prop :=
  ∀ (s t u : State) (w v : Word) (nnn : Addr),
    fetchWord s = some w → decode w = .instr (.call nnn) → step s = .next t → t.status = .running →
    StaysAbove s.sp.val t u → u.status = .running → u.sp.val = s.sp.val + 1 →
    fetchWord u = some v → decode v = .instr .ret →
    ∃ r, step u = .next r ∧ r.pc.toNat = s.pc.toNat + 2 ∧ r.sp = s.sp ∧ r.status = .running

/-! ## Skips -/

/-- R100: SE Vx, kk is the word 3xkk; it adds 2 to the advanced pc exactly when V[x] = kk, and changes nothing else. -/
def Obligations.SeImmediateSkipsWhenEqual : Prop :=
  ∀ (s : State) (x : RegIdx) (kk : Byte),
    decode (BitVec.ofNat 16 (0x3000 + x.val * 256 + kk.toNat)) = .instr (.seImm x kk) ∧
    ∃ t, exec (.seImm x kk) s = .next t ∧ ((s.reg x).toNat = kk.toNat → t.pc = s.pc + 2#16) ∧
      ((s.reg x).toNat ≠ kk.toNat → t.pc = s.pc) ∧ s.SameData t ∧ t.status = s.status

/-- R101: SNE Vx, kk is the word 4xkk; it adds 2 to the advanced pc exactly when V[x] is not kk, and changes nothing
else; so exactly one of SE Vx, kk and SNE Vx, kk skips. -/
def Obligations.SneImmediateSkipsWhenDifferent : Prop :=
  ∀ (s : State) (x : RegIdx) (kk : Byte),
    decode (BitVec.ofNat 16 (0x4000 + x.val * 256 + kk.toNat)) = .instr (.sneImm x kk) ∧
    ∃ t, exec (.sneImm x kk) s = .next t ∧ ((s.reg x).toNat ≠ kk.toNat → t.pc = s.pc + 2#16) ∧
      ((s.reg x).toNat = kk.toNat → t.pc = s.pc) ∧ s.SameData t ∧ t.status = s.status

/-- SE Vx, Vy (5xy0) and SNE Vx, Vy (9xy0) add 2 to the advanced pc exactly when the registers are equal, and exactly
when they differ, and change nothing else; with x = y SE always skips and SNE never does (42_skip.md R102, R103). A
non-zero low nibble is unimplemented with STRICT_REG_SKIP_NIBBLE true and ignored with it false (D7). -/
def Obligations.RegisterSkipsCompareTwoRegisters : Prop :=
  (∀ (s : State) (x y : RegIdx),
    (∃ t, exec (.seReg x y) s = .next t ∧ ((s.reg x).toNat = (s.reg y).toNat → t.pc = s.pc + 2#16) ∧
      ((s.reg x).toNat ≠ (s.reg y).toNat → t.pc = s.pc) ∧ s.SameData t ∧ t.status = s.status) ∧
    (∃ t, exec (.sneReg x y) s = .next t ∧ ((s.reg x).toNat ≠ (s.reg y).toNat → t.pc = s.pc + 2#16) ∧
      ((s.reg x).toNat = (s.reg y).toNat → t.pc = s.pc) ∧ s.SameData t ∧ t.status = s.status)) ∧
  (∀ (x y n : Fin 16) (strict : Bool),
    decodeWith strict Config.shlSubop (BitVec.ofNat 16 (0x5000 + x.val * 256 + y.val * 16 + n.val)) =
      (if strict = true ∧ n ≠ 0 then .unimplemented (BitVec.ofNat 16 (0x5000 + x.val * 256 + y.val * 16 + n.val))
       else .instr (.seReg x y)) ∧
    decodeWith strict Config.shlSubop (BitVec.ofNat 16 (0x9000 + x.val * 256 + y.val * 16 + n.val)) =
      (if strict = true ∧ n ≠ 0 then .unimplemented (BitVec.ofNat 16 (0x9000 + x.val * 256 + y.val * 16 + n.val))
       else .instr (.sneReg x y)))

/-! ## Immediate -/

/-- R110: LD Vx, kk is the word 6xkk; it writes kk to V[x], VF only when x = 0xF, and changes nothing else. -/
def Obligations.LdImmediateWritesItsByte : Prop :=
  ∀ (s : State) (x : RegIdx) (kk : Byte),
    decode (BitVec.ofNat 16 (0x6000 + x.val * 256 + kk.toNat)) = .instr (.ldImm x kk) ∧
    ∃ t, exec (.ldImm x kk) s = .next t ∧ t.reg x = kk ∧ (∀ r, r ≠ x → t.reg r = s.reg r) ∧ s.SameButRegs t

/-- ADD Vx, kk (7xkk): V[x] becomes the sum mod 256 where x is not 0xF, VF is 1 iff the sum is 256 or more, also with
x = 0xF (the flag is written last, D8), and nothing else changes (43_immediate.md R111). -/
def Obligations.AddImmediateWrapsAndWritesCarry : Prop :=
  ∀ (s : State) (x : RegIdx) (kk : Byte),
    decode (BitVec.ofNat 16 (0x7000 + x.val * 256 + kk.toNat)) = .instr (.addImm x kk) ∧
    ∃ t, exec (.addImm x kk) s = .next t ∧
      (x ≠ Config.flagReg → (t.reg x).toNat = ((s.reg x).toNat + kk.toNat) % 256) ∧
      (t.reg Config.flagReg).toNat = (if 256 ≤ (s.reg x).toNat + kk.toNat then 1 else 0) ∧
      (∀ r, r ≠ x → r ≠ Config.flagReg → t.reg r = s.reg r) ∧ s.SameButRegs t

/-! ## ALU -/

/-- R120: LD Vx, Vy is the word 8xy0; it copies V[y] to V[x] and changes nothing else (x = y changes nothing). -/
def Obligations.LdRegisterCopies : Prop :=
  ∀ (s : State) (x y : RegIdx),
    decode (BitVec.ofNat 16 (0x8000 + x.val * 256 + y.val * 16)) = .instr (.ldReg x y) ∧
    ∃ t, exec (.ldReg x y) s = .next t ∧ t.reg x = s.reg y ∧ (∀ r, r ≠ x → t.reg r = s.reg r) ∧ s.SameButRegs t

/-- OR, AND, XOR (8xy1, 8xy2, 8xy3): V[x] becomes the bitwise result, and nothing else changes, VF included unless
x = 0xF (44_alu.md R121 to R123; that VF stays is D18). -/
def Obligations.LogicOperationsAreBitwiseAndLeaveVf : Prop :=
  ∀ (s : State) (x y : RegIdx),
    (decode (BitVec.ofNat 16 (0x8001 + x.val * 256 + y.val * 16)) = .instr (.orReg x y) ∧
      ∃ t, exec (.orReg x y) s = .next t ∧
        (∀ k < 8, (t.reg x).getLsbD k = ((s.reg x).getLsbD k || (s.reg y).getLsbD k)) ∧
        (∀ r, r ≠ x → t.reg r = s.reg r) ∧ s.SameButRegs t) ∧
    (decode (BitVec.ofNat 16 (0x8002 + x.val * 256 + y.val * 16)) = .instr (.andReg x y) ∧
      ∃ t, exec (.andReg x y) s = .next t ∧
        (∀ k < 8, (t.reg x).getLsbD k = ((s.reg x).getLsbD k && (s.reg y).getLsbD k)) ∧
        (∀ r, r ≠ x → t.reg r = s.reg r) ∧ s.SameButRegs t) ∧
    (decode (BitVec.ofNat 16 (0x8003 + x.val * 256 + y.val * 16)) = .instr (.xorReg x y) ∧
      ∃ t, exec (.xorReg x y) s = .next t ∧
        (∀ k < 8, (t.reg x).getLsbD k = ((s.reg x).getLsbD k ^^ (s.reg y).getLsbD k)) ∧
        (∀ r, r ≠ x → t.reg r = s.reg r) ∧ s.SameButRegs t)

/-- ADD Vx, Vy (8xy4): V[x] becomes the sum mod 256 where x is not 0xF, VF is 1 iff the sum of the old values is 256 or
more, also with x = 0xF (D8), and nothing else changes (44_alu.md R124, R129). -/
def Obligations.AddRegisterWrapsAndWritesCarry : Prop :=
  ∀ (s : State) (x y : RegIdx),
    decode (BitVec.ofNat 16 (0x8004 + x.val * 256 + y.val * 16)) = .instr (.addReg x y) ∧
    ∃ t, exec (.addReg x y) s = .next t ∧
      (x ≠ Config.flagReg → (t.reg x).toNat = ((s.reg x).toNat + (s.reg y).toNat) % 256) ∧
      (t.reg Config.flagReg).toNat = (if 256 ≤ (s.reg x).toNat + (s.reg y).toNat then 1 else 0) ∧
      (∀ r, r ≠ x → r ≠ Config.flagReg → t.reg r = s.reg r) ∧ s.SameButRegs t

/-- SUB Vx, Vy (8xy5): V[x] becomes Vx - Vy mod 256 where x is not 0xF, VF is 1 iff Vx >= Vy before (NOT borrow), also
with x = 0xF (D8), and nothing else changes (44_alu.md R125, R129). -/
def Obligations.SubWrapsAndWritesNotBorrow : Prop :=
  ∀ (s : State) (x y : RegIdx),
    decode (BitVec.ofNat 16 (0x8005 + x.val * 256 + y.val * 16)) = .instr (.sub x y) ∧
    ∃ t, exec (.sub x y) s = .next t ∧
      (x ≠ Config.flagReg → ((t.reg x).toNat : Int) = ((s.reg x).toNat - (s.reg y).toNat : Int) % 256) ∧
      (t.reg Config.flagReg).toNat = (if (s.reg y).toNat ≤ (s.reg x).toNat then 1 else 0) ∧
      (∀ r, r ≠ x → r ≠ Config.flagReg → t.reg r = s.reg r) ∧ s.SameButRegs t

/-- SUBN Vx, Vy (8xy7): V[x] becomes Vy - Vx mod 256 where x is not 0xF, VF is 1 iff Vy >= Vx before (NOT borrow), also
with x = 0xF (D8), and nothing else changes (44_alu.md R127, R129). -/
def Obligations.SubnWrapsAndWritesNotBorrow : Prop :=
  ∀ (s : State) (x y : RegIdx),
    decode (BitVec.ofNat 16 (0x8007 + x.val * 256 + y.val * 16)) = .instr (.subn x y) ∧
    ∃ t, exec (.subn x y) s = .next t ∧
      (x ≠ Config.flagReg → ((t.reg x).toNat : Int) = ((s.reg y).toNat - (s.reg x).toNat : Int) % 256) ∧
      (t.reg Config.flagReg).toNat = (if (s.reg x).toNat ≤ (s.reg y).toNat then 1 else 0) ∧
      (∀ r, r ≠ x → r ≠ Config.flagReg → t.reg r = s.reg r) ∧ s.SameButRegs t

/-- SHR Vx (8xy6 for every y, D20): V[x] is halved where x is not 0xF, VF is the old bit 0, also with x = 0xF (D8), and
nothing else changes (44_alu.md R126, R129). -/
def Obligations.ShrHalvesAndWritesBitZero : Prop :=
  ∀ (s : State) (x y : RegIdx),
    decode (BitVec.ofNat 16 (0x8006 + x.val * 256 + y.val * 16)) = .instr (.shr x) ∧
    ∃ t, exec (.shr x) s = .next t ∧
      (x ≠ Config.flagReg → (t.reg x).toNat = (s.reg x).toNat / 2) ∧
      (t.reg Config.flagReg).toNat = (s.reg x).toNat % 2 ∧
      (∀ r, r ≠ x → r ≠ Config.flagReg → t.reg r = s.reg r) ∧ s.SameButRegs t

/-- SHL Vx (8xy8 for every y, D20): V[x] is doubled mod 256 where x is not 0xF, VF is the old bit 7, also with x = 0xF
(D8), and nothing else changes (44_alu.md R128, R129). -/
def Obligations.ShlDoublesAndWritesBitSeven : Prop :=
  ∀ (s : State) (x y : RegIdx),
    decode (BitVec.ofNat 16 (0x8008 + x.val * 256 + y.val * 16)) = .instr (.shl x) ∧
    ∃ t, exec (.shl x) s = .next t ∧
      (x ≠ Config.flagReg → (t.reg x).toNat = (s.reg x).toNat * 2 % 256) ∧
      (t.reg Config.flagReg).toNat = (s.reg x).toNat / 128 ∧
      (∀ r, r ≠ x → r ≠ Config.flagReg → t.reg r = s.reg r) ∧ s.SameButRegs t

/-- R130: the arithmetic laws of the ALU's results and flags, for all inputs a and b. -/
def Obligations.AluArithmeticLaws : Prop :=
  ∀ a b : Byte,
    ((addResult a b).toNat = (a.toNat + b.toNat) % 256 ∧ (addFlag a b = 1#8 ↔ 256 ≤ a.toNat + b.toNat) ∧
      (addFlag a b = 0#8 ↔ a.toNat + b.toNat < 256)) ∧
    (((subResult a b).toNat : Int) = (a.toNat - b.toNat : Int) % 256 ∧ (subFlag a b = 1#8 ↔ b.toNat ≤ a.toNat) ∧
      (subFlag a b = 0#8 ↔ a.toNat < b.toNat)) ∧
    ((shrResult a).toNat = a.toNat / 2 ∧ (shrResult a).getLsbD 7 = false ∧ (shrFlag a).toNat = a.toNat % 2) ∧
    ((shlResult a).toNat = a.toNat * 2 % 256 ∧ (shlResult a).getLsbD 0 = false ∧ (shlFlag a).toNat = a.toNat / 128) ∧
    (subResult a a = 0#8 ∧ subFlag a a = 1#8 ∧ (addFlag a a).toNat = a.toNat / 128) ∧
    ∀ (s : State) (x y : RegIdx), s.reg x = a → s.reg y = b →
      exec (.addReg x y) s = .next (s.writeResultAndFlag x (addResult a b) (addFlag a b)) ∧
      exec (.sub x y) s = .next (s.writeResultAndFlag x (subResult a b) (subFlag a b)) ∧
      exec (.subn x y) s = .next (s.writeResultAndFlag x (subResult b a) (subFlag b a)) ∧
      exec (.shr x) s = .next (s.writeResultAndFlag x (shrResult a) (shrFlag a)) ∧
      exec (.shl x) s = .next (s.writeResultAndFlag x (shlResult a) (shlFlag a)) ∧
      exec (.orReg x y) s = .next (s.setReg x (a ||| b)) ∧ exec (.andReg x y) s = .next (s.setReg x (a &&& b)) ∧
      exec (.xorReg x y) s = .next (s.setReg x (a ^^^ b)) ∧ exec (.ldReg x y) s = .next (s.setReg x b)

/-! ## Rules about all instructions -/

/-- An instruction writes no register but its destination, and VF where it is one of the six flag writers, which leave
0 or 1 there (10_state.md R21, R22; VF with x = 0xF is D8). -/
def Obligations.InstructionsWriteOnlyNamedRegistersAndVf : Prop :=
  ∀ (i : Instr) (s t : State), exec i s = .next t →
    (∀ r, destination i ≠ some r → (flagWriter i = true → r ≠ Config.flagReg) → t.reg r = s.reg r) ∧
    (flagWriter i = true → t.reg Config.flagReg = 0#8 ∨ t.reg Config.flagReg = 1#8)

/-- R27: sp stays in [0, STACK_DEPTH]; CALL increments it after writing S[sp], RET decrements it, a faulting CALL or
RET leaves it unchanged, nothing else changes it except reset, and its reset value is 0. -/
def Obligations.OnlyCallRetAndResetMoveTheStackPointer : Prop :=
  (∀ s : State, s.sp.val ≤ Config.stackDepth) ∧ State.reset.sp.val = 0 ∧
  (∀ (i : Instr) (s t : State), exec i s = .next t →
    (∀ nnn, i = .call nnn → (t.sp.val = s.sp.val + 1 ∧
        ∀ j : Fin Config.stackDepth, j.val = s.sp.val → t.slot j = s.pc) ∨
      (t.sp = s.sp ∧ ∃ f, t.status = .faulted f)) ∧
    (i = .ret → (t.sp.val + 1 = s.sp.val ∧ ∀ j : Fin Config.stackDepth, j.val = t.sp.val → t.pc = s.slot j) ∨
      (t.sp = s.sp ∧ ∃ f, t.status = .faulted f)) ∧
    ((∀ nnn, i ≠ .call nnn) → i ≠ .ret → t.sp = s.sp)) ∧
  (∀ s t : State, step s = .next t → t.sp ≠ s.sp →
    ∃ w i, fetchWord s = some w ∧ decode w = .instr i ∧ ((∃ nnn, i = .call nnn) ∨ i = .ret)) ∧
  (∀ op (s t : State) r, hostOp op s = .next (t, r) → op ≠ .reset → t.sp = s.sp)

/-- Only CALL writes a slot, and only the one at sp (10_state.md R26, R28). -/
def Obligations.OnlyCallWritesASlot : Prop :=
  ∀ (i : Instr) (s t : State), exec i s = .next t →
    ((∀ nnn, i ≠ .call nnn) → ∀ j, t.slot j = s.slot j) ∧
    (∀ j : Fin Config.stackDepth, j.val ≠ s.sp.val → t.slot j = s.slot j)

/-- No step writes memory (20_memory.md R41, which the spec marks derived). -/
def Obligations.NoStepWritesMemory : Prop :=
  ∀ s t : State, step s = .next t → t.mem = s.mem ∧ ∀ a, t.readByte a = s.readByte a

/-- A step depends on memory only through the word it fetches, so what a taken skip passes over is never read
(42_skip.md R104, 20_memory.md R47, R52, which the spec marks derived). -/
def Obligations.StepReadsNoMemoryButTheFetchedWord : Prop :=
  ∀ (s t : State) (m : Memory), step s = .next t → fetchWord { s with mem := m } = fetchWord s →
    step { s with mem := m } = .next { t with mem := m }

/-- A Running machine always takes a step, and the step leaves it Running, Halted (exactly on the word 0000) or
Faulted; in the other statuses no step is taken (40_cycle.md R84, R85, R87). What `step` answers there is the model's
choice (log 1, log 2). -/
def Obligations.RunningMachineAlwaysStepsAndNoOtherDoes : Prop :=
  (∀ s : State, s.status = .running → ∃ t, step s = .next t ∧ t.status ≠ .idle ∧
    (t.status = .halted ↔ fetchWord s = some 0x0000#16)) ∧
  (∀ s : State, s.status = .idle ∨ s.status = .halted → step s = .refused .notRunning) ∧
  (∀ (s : State) (f : Fault), s.status = .faulted f → step s = .fault f)

/-- Which fault a step raises, and exactly when: out-of-bounds fetch first (its threshold is D4), then the unimplemented
word, then CALL's two checks in their order (D9), and RET's; nothing else faults (60_exceptions.md R141 to R146, R148). -/
def Obligations.EachFaultHasExactlyItsCause : Prop :=
  ∀ (s : State) (f : Fault), s.status = .running →
    (FaultsNext s f ↔
      (Config.memSize ≤ s.pc.toNat + 1 ∧ f = .outOfBoundsFetch s.pc) ∨
      ∃ w, fetchWord s = some w ∧
        ((decode w = .unimplemented w ∧ f = .unimplementedInstruction w) ∨
         (∃ nnn, decode w = .instr (.call nnn) ∧ nnn.toNat < Config.execBase ∧
           f = .reservedMemoryCall (nnn.setWidth 16)) ∨
         (∃ nnn, decode w = .instr (.call nnn) ∧ Config.execBase ≤ nnn.toNat ∧ s.sp.val = Config.stackDepth ∧
           f = .stackOverflow) ∨
         (decode w = .instr .ret ∧ s.sp.val = 0 ∧ f = .stackUnderflow)))

/-- Faults are precise: registers, stack, sp and memory are unchanged, and the pc is unchanged by a fetch fault and
advanced by 2 by every other (60_exceptions.md R147; D10, and D4 for the threshold of the fetch check). -/
def Obligations.FaultsArePrecise : Prop :=
  ∀ (s t : State) (f : Fault), step s = .next t → t.status = .faulted f →
    s.SameData t ∧ t.mem = s.mem ∧
    t.pc.toNat = (if s.pc.toNat + 1 < Config.memSize then s.pc.toNat + 2 else s.pc.toNat)

/-! ## The invariant -/

/-- The invariant holds after reset (10_state.md R24, R36). Its clause that memory is in canonical form is the model's own
design choice (log 17) and no rule of the spec. -/
def Obligations.ResetMeetsTheInvariant : Prop := State.reset.Inv

/-- Every step keeps the invariant: the pc is at most max(MEM_SIZE + 2, 0xFFF) = 0x1002, and every return address still
to be popped is at most MEM_SIZE (10_state.md R24, which the spec marks derived). Its third clause, that memory stays in
canonical form, is the model's own design choice (log 17) and no rule of the spec. -/
def Obligations.EveryStepKeepsTheInvariant : Prop :=
  ∀ s t : State, s.Inv → step s = .next t → t.Inv

/-- Every host operation keeps the invariant (10_state.md R24, R33). The clause that memory stays in canonical form, the
only one that HostWriteMem could break, is the model's own design choice (log 17) and no rule of the spec. -/
def Obligations.EveryHostOperationKeepsTheInvariant : Prop :=
  ∀ op (s t : State) r, s.Inv → hostOp op s = .next (t, r) → t.Inv

/-- A machine with an even pc and even return addresses keeps them even through every step but a JP or CALL to an odd
target (10_state.md R25, which the spec marks derived). -/
def Obligations.EvenTargetsKeepThePcEven : Prop :=
  ∀ s t : State, EvenAddresses s → step s = .next t →
    (∀ w nnn, fetchWord s = some w → decode w = .instr (.jp nnn) ∨ decode w = .instr (.call nnn) →
      nnn.toNat % 2 = 0) →
    EvenAddresses t

/-- Two memories in canonical form that read alike everywhere are equal data (log 17). -/
def Obligations.CanonicalMemoriesReadingAlikeAreEqual : Prop :=
  ∀ m n : Memory, m.wf → n.wf → (∀ a, m.read a = n.read a) → m = n

/-! ## Encoding -/

/-- R62: the fields of a word are the shifts and masks given there. -/
def Obligations.FieldsAreTheShiftsAndMasks : Prop :=
  ∀ w : Word,
    (fieldGroup w).toNat = ((w >>> 12) &&& 0xF#16).toNat ∧ (fieldX w).val = ((w >>> 8) &&& 0xF#16).toNat ∧
    (fieldY w).val = ((w >>> 4) &&& 0xF#16).toNat ∧ (fieldSubop w).toNat = (w &&& 0xF#16).toNat ∧
    (fieldKk w).toNat = (w &&& 0xFF#16).toNat ∧ (fieldNnn w).toNat = (w &&& 0xFFF#16).toNat

/-- A few words of the spec decode to the instructions they stand for (30_encoding.md R66 to R68). -/
def Obligations.SampleWordsDecode : Prop :=
  decode 0x00EE#16 = .instr .ret ∧ decode 0x1ABC#16 = .instr (.jp 0xABC#12) ∧
  decode 0x3F01#16 = .instr (.seImm 15 0x01#8) ∧ decode 0x6A42#16 = .instr (.ldImm 10 0x42#8) ∧
  decode 0x8014#16 = .instr (.addReg 0 1) ∧ decode 0x8356#16 = .instr (.shr 3) ∧
  decode 0x800E#16 = .unimplemented 0x800E#16 ∧ decode 0x00E0#16 = .unimplemented 0x00E0#16

/-- Decode and encode agree: for every instruction, its two bytes, whatever follows them, decode to it (30_encoding.md
R64 to R68, R71). -/
def Obligations.DecodingAnEncodedInstructionGivesItBack : Prop :=
  ∀ (i : Instr) (rest : List Byte),
    i.wellFormed = true ∧ decodeBytes (encodeBytes i ++ rest) = some (.instr i, rest)

/-- The other direction: a word that decodes to an instruction is that instruction's word, but for the y nibble of SHR
and SHL, which is ignored (30_encoding.md R64; D20). -/
def Obligations.EncodingADecodedWordGivesItBack : Prop :=
  ∀ (w : Word) (i : Instr), decode w = .instr i →
    encode i = (if (∃ x, i = .shr x) ∨ (∃ x, i = .shl x) then w &&& 0xFF0F#16 else w)

/-- The decoder as one function equals the dispatch table with the group-8 sub-table, first match wins (30_encoding.md
R66 to R68), for both values of STRICT_REG_SKIP_NIBBLE (00_scope.md R10; the parameter is D7, log 8). With the default
value true this is what R68 says; the half with the value false is derived from R66's masks. -/
def Obligations.DecoderEqualsTheDispatchTable : Prop :=
  ∀ (strict : Bool) (w : Word), decodeWith strict Config.shlSubop w = decodeByTable strict Config.shlSubop w

/-- No two rows of the dispatch table select the same word (30_encoding.md R66, which the spec marks derived). -/
def Obligations.NoWordSelectsTwoRows : Prop :=
  ∀ (strict : Bool) (w : Word),
    (opcodeTable strict Config.shlSubop).Pairwise (fun r q => ¬ (r.selects w = true ∧ q.selects w = true))

/-- The unimplemented words are exactly the ranges of R69 (30_encoding.md R69; groups 5 and 9 rest on D7). -/
def Obligations.UnimplementedWordsAreExactlyTheListedRanges : Prop :=
  ∀ w : Word, decode w = .unimplemented w ↔
    (w.toNat < 0x1000 ∧ w.toNat ≠ 0x0000 ∧ w.toNat ≠ 0x00EE) ∨
    (w.toNat / 0x1000 = 0x5 ∧ w.toNat % 16 ≠ 0) ∨ (w.toNat / 0x1000 = 0x8 ∧ 0x9 ≤ w.toNat % 16) ∨
    (w.toNat / 0x1000 = 0x9 ∧ w.toNat % 16 ≠ 0) ∨ 0xA000 ≤ w.toNat

/-! ## The host port, the run and the assembler -/

/-- While CORE is Running the host has no move but HostReadStatus; Run() starts a run exactly from Idle and Halted, and
is refused from Faulted (10_state.md R33, R34, 40_cycle.md R86, R87; D10, D13). -/
def Obligations.HostMovesOnlyWhenTheStatusAllows : Prop :=
  (∀ op (s : State), s.status = .running →
    hostOp op s = if op = .readStatus then .next (s, .status .running) else .refused .hostWhileRunning) ∧
  (∀ s : State, s.status = .idle ∨ s.status = .halted →
    hostOp .run s = .next ({ s with status := .running }, .done)) ∧
  (∀ (s : State) (f : Fault), s.status = .faulted f → hostOp .run s = .refused .runAfterFault)

/-- What the host writes it reads back, and nothing else changes; an index above 15 or an address from MEM_SIZE on is
refused (10_state.md R33; 20_memory.md R48, D19). -/
def Obligations.HostReadsBackWhatItWrites : Prop :=
  ∀ (s : State) (k : Nat) (v : Byte), s.status ≠ .running →
    (k < 16 → ∃ t, hostOp (.writeReg k v) s = .next (t, .done) ∧ hostOp (.readReg k) t = .next (t, .byte v) ∧
      (∀ r : RegIdx, r.val ≠ k → t.reg r = s.reg r) ∧ s.SameButRegs t) ∧
    (16 ≤ k → hostOp (.writeReg k v) s = .refused .noSuchRegister ∧
      hostOp (.readReg k) s = .refused .noSuchRegister) ∧
    (k < Config.memSize → ∃ t, hostOp (.writeMem k v) s = .next (t, .done) ∧
      hostOp (.readMem k) t = .next (t, .byte v) ∧ (∀ a, a ≠ k → t.readByte a = s.readByte a) ∧
      t.regs = s.regs ∧ t.pc = s.pc ∧ t.stack = s.stack ∧ t.sp = s.sp ∧ t.status = s.status) ∧
    (Config.memSize ≤ k → hostOp (.writeMem k v) s = .refused .noSuchAddress ∧
      hostOp (.readMem k) s = .refused .noSuchAddress)

/-- The host cannot write the pc, sp or the stack slots, except by Reset() (10_state.md R33; D14). -/
def Obligations.HostCannotWritePcSpOrSlots : Prop :=
  ∀ op (s t : State) r, hostOp op s = .next (t, r) → op ≠ .reset → t.pc = s.pc ∧ t.sp = s.sp ∧ ∀ j, t.slot j = s.slot j

/-- Run() is the repetition of Step(): it is refused exactly when status is Running or Faulted; from Idle or Halted it
returns Success with t, or Failure(f) with t, exactly when steps lead from the state with status Running to t and t is
Halted, or Faulted(f), within the fuel; and it is out of fuel with t, which is neither Halted nor Faulted, exactly when
as many steps as there is fuel lead to t and t is Running (40_cycle.md R86 to R88; the fuel is the model's, log 20). -/
def Obligations.RunOutcomeAgreesWithTheStatusItLeaves : Prop :=
  ∀ (fuel : Nat) (s : State),
    ((∃ r, runFor fuel s = .refused r) ↔ s.status = .running ∨ ∃ f, s.status = .faulted f) ∧
    (s.status = .idle ∨ s.status = .halted →
      (∀ t, runFor fuel s = .success t ↔
        t.status = .halted ∧ ∃ n, n ≤ fuel ∧ StepsTo n { s with status := .running } t) ∧
      (∀ f t, runFor fuel s = .failure f t ↔
        t.status = .faulted f ∧ ∃ n, n ≤ fuel ∧ StepsTo n { s with status := .running } t) ∧
      (∀ t, runFor fuel s = .outOfFuel t ↔
        t.status = .running ∧ StepsTo fuel { s with status := .running } t))

/-- More fuel does not change how a run ends (40_cycle.md R86, R88). -/
def Obligations.MoreFuelDoesNotChangeTheOutcome : Prop :=
  ∀ (n m : Nat) (s : State), n ≤ m → (∀ t, runFor n s ≠ .outOfFuel t) → runFor m s = runFor n s

/-- The assembler refuses exactly the ill-formed lines; every instruction's line gives its word; a line that is an
instruction's gives a word that decodes to it, the ignored y of SHR and SHL included; and a DW line gives its raw word,
for every word, instruction or not, and gives no other word (30_encoding.md R71; D2, D20; how the word of DW may be
spelled is the model's choice, log 21). -/
def Obligations.AssembledLinesDecodeToTheirInstructions : Prop :=
  (∀ l : AsmLine, assemble l = none ↔ l.wellFormed = false) ∧
  (∀ i : Instr, assemble i.toLine = some (encode i)) ∧
  (∀ (l : AsmLine) (w : Word), assemble l = some w → l.mnemonic ≠ .dw →
    ∃ i, toInstr l = some i ∧ decode w = .instr i) ∧
  (∀ w : Word, assemble ⟨.dw, [.num w.toNat]⟩ = some w) ∧
  (∀ (l : AsmLine) (w : Word), assemble l = some w → l.mnemonic = .dw → l.operands = [.num w.toNat])

/-- Words placed from EXEC_BASE on, high byte first, are what a fetch at their addresses reads, and no byte outside
them changes (30_encoding.md R71, 20_memory.md R43, R52; 70_reset_and_hazards.md R163). -/
def Obligations.PlacedWordsAreFetched : Prop :=
  ∀ (ws : List Word) (s : State), Config.execBase + 2 * ws.length ≤ Config.memSize →
    ∃ t, loadWords ws s = some t ∧
      (∀ (k : Nat) (h : k < ws.length),
        fetchWord { t with pc := BitVec.ofNat 16 (Config.execBase + 2 * k) } = some ws[k]) ∧
      (∀ a, a < Config.execBase ∨ Config.execBase + 2 * ws.length ≤ a → t.readByte a = s.readByte a) ∧
      t.regs = s.regs ∧ t.pc = s.pc ∧ t.stack = s.stack ∧ t.sp = s.sp ∧ t.status = s.status

/-- HostReadStatus() returns status, always; HostReadPC() and HostReadSP() return pc and sp whenever status is not
Running; none of them changes anything (10_state.md R33; D12, D14). -/
def Obligations.HostObservesStatusPcAndSp : Prop :=
  ∀ s : State, hostOp .readStatus s = .next (s, .status s.status) ∧
    (s.status ≠ .running → hostOp .readPc s = .next (s, .pc s.pc) ∧ hostOp .readSp s = .next (s, .sp s.sp.val)) ∧
    (s.status = .running → hostOp .readPc s = .refused .hostWhileRunning ∧
      hostOp .readSp s = .refused .hostWhileRunning)

/-! ## The parameters -/

/-- The machine of every other statement is the machine of any parameters at their default values, 4096, 0x200, 32, true
and 8, which meet the constraints (00_scope.md R9, R10; D17, D7; log 13). -/
def Obligations.TheMachineIsTheOneWithTheDefaultParameters : Prop :=
  Config.defaults = ⟨4096, 0x200, 32, true, 0x8#4⟩ ∧ Config.defaults.sizesLegal ∧
  State.reset = State.resetFor Config.defaults ∧
  (∀ (i : Instr) (s : State), exec i s = execFor i s) ∧ ∀ s : State, step s = stepFor s

/-- For all parameters that meet the constraints, each one sets its threshold: reset puts the pc at EXEC_BASE; a step
faults on the fetch exactly when pc + 1 >= MEM_SIZE; a CALL is reserved below EXEC_BASE, and overflows with STACK_DEPTH
entries on the stack; otherwise it pushes the advanced pc and goes to its target; RET underflows with none. The rules are
written in these names (00_scope.md R9; D17; the fetch check's threshold is D4, the order of CALL's checks D9). -/
def Obligations.ParametersSetTheirThresholds : Prop :=
  ∀ cfg : Config.Params, cfg.sizesLegal →
    ((State.resetFor cfg).pc.toNat = cfg.execBase ∧ (State.resetFor cfg).sp.val = 0) ∧
    ∀ s : State cfg, s.status = .running →
      (cfg.memSize ≤ s.pc.toNat + 1 → stepFor s = .next { s with status := .faulted (.outOfBoundsFetch s.pc) }) ∧
      (s.pc.toNat + 1 < cfg.memSize → ∃ w t, fetchWord s = some w ∧ stepFor s = .next t ∧
        (∀ p, t.status ≠ .faulted (.outOfBoundsFetch p)) ∧
        (∀ nnn, decodeFor cfg w = .instr (.call nnn) →
          (nnn.toNat < cfg.execBase → t.status = .faulted (.reservedMemoryCall (nnn.setWidth 16))) ∧
          (cfg.execBase ≤ nnn.toNat → s.sp.val = cfg.stackDepth → t.status = .faulted .stackOverflow) ∧
          (cfg.execBase ≤ nnn.toNat → s.sp.val < cfg.stackDepth → t.status = .running ∧
            t.pc.toNat = nnn.toNat ∧ t.sp.val = s.sp.val + 1 ∧
            ∀ j : Fin cfg.stackDepth, j.val = s.sp.val → (t.slot j).toNat = s.pc.toNat + 2)) ∧
        (decodeFor cfg w = .instr .ret → (t.status = .faulted .stackUnderflow ↔ s.sp.val = 0)))

/-- Whatever parameters meet the constraints, the state after reset meets the invariant and every step keeps it: the pc
is at most max(MEM_SIZE + 2, 0xFFF), which fits in 16 bits, so it never wraps, and every return address still to be popped
is at most MEM_SIZE (10_state.md R24, which the spec marks derived; 00_scope.md R9, D17). Its third clause, that memory
stays in canonical form, is the model's own design choice (log 17) and no rule of the spec. -/
def Obligations.EveryStepKeepsTheInvariantForAllParameters : Prop :=
  ∀ cfg : Config.Params, cfg.sizesLegal →
    (State.resetFor cfg).Inv ∧ max (cfg.memSize + 2) 0xFFF < 2 ^ 16 ∧
    ∀ s t : State cfg, s.Inv → stepFor s = .next t → t.Inv

/-- A step that starts and ends with sp above a slot leaves the return address in that slot as it is (41_control_flow.md
R94, 10_state.md R26, R28, which the spec marks derived). -/
def Obligations.AStepAboveAReturnAddressKeepsIt : Prop :=
  ∀ (s t : State) (j : Fin Config.stackDepth), step s = .next t → j.val < s.sp.val → j.val < t.sp.val →
    t.slot j = s.slot j
end

