-- ==== Sys2Proof/Laws/Decode.lean ====
section
/-! SUPPORT. The fields of a word as arithmetic on its value, and the words the encoder makes. -/

namespace Sys2Proof

/-! ## Fields as arithmetic -/

@[simp] theorem fieldGroup_toNat (w : Word) : (fieldGroup w).toNat = w.toNat / 4096 % 16 := by
  simp [fieldGroup, Nat.shiftRight_eq_div_pow]

@[simp] theorem fieldX_val (w : Word) : (fieldX w).val = w.toNat / 256 % 16 := by
  show (w.extractLsb' 8 4).toNat = _
  simp [Nat.shiftRight_eq_div_pow]

@[simp] theorem fieldY_val (w : Word) : (fieldY w).val = w.toNat / 16 % 16 := by
  show (w.extractLsb' 4 4).toNat = _
  simp [Nat.shiftRight_eq_div_pow]

@[simp] theorem fieldSubop_toNat (w : Word) : (fieldSubop w).toNat = w.toNat % 16 := by
  simp [fieldSubop]

@[simp] theorem fieldKk_toNat (w : Word) : (fieldKk w).toNat = w.toNat % 256 := by
  simp [fieldKk]

@[simp] theorem fieldNnn_toNat (w : Word) : (fieldNnn w).toNat = w.toNat % 4096 := by
  simp [fieldNnn]

/-! ## Words as arithmetic -/

/-- Two bit strings side by side: the left one weighs 2 to the right one's width. -/
theorem append_toNat {m n : Nat} (a : BitVec m) (b : BitVec n) : (a ++ b).toNat = a.toNat * 2 ^ n + b.toNat := by
  rw [BitVec.toNat_append, ← Nat.shiftLeft_add_eq_or_of_lt b.isLt, Nat.shiftLeft_eq]

theorem wordXKk_toNat (g : BitVec 4) (x : RegIdx) (kk : Byte) :
    (wordXKk g x kk).toNat = g.toNat * 4096 + x.val * 256 + kk.toNat := by
  have h : (wordXKk g x kk).toNat = (g.toNat * 2 ^ 4 + x.val) * 2 ^ 8 + kk.toNat := by
    simp only [wordXKk, append_toNat, BitVec.toNat_ofFin]
  rw [h]; ring

theorem wordXY_toNat (g : BitVec 4) (x y : RegIdx) (n : BitVec 4) :
    (wordXY g x y n).toNat = g.toNat * 4096 + x.val * 256 + y.val * 16 + n.toNat := by
  have h : (wordXY g x y n).toNat = ((g.toNat * 2 ^ 4 + x.val) * 2 ^ 4 + y.val) * 2 ^ 4 + n.toNat := by
    simp only [wordXY, append_toNat, BitVec.toNat_ofFin]
  rw [h]; ring

theorem wordNnn_toNat (g : BitVec 4) (nnn : Addr) : (wordNnn g nnn).toNat = g.toNat * 4096 + nnn.toNat := by
  simp only [wordNnn, append_toNat, Nat.reducePow]

/-! ## Bytes -/

theorem joinBytes_toNat (hi lo : Byte) : (joinBytes hi lo).toNat = hi.toNat * 256 + lo.toNat := by
  have h := lo.isLt
  have h' := hi.isLt
  have e : joinBytes hi lo = BitVec.ofNat 16 (hi.toNat <<< 8 ||| lo.toNat) := by
    apply BitVec.eq_of_toNat_eq
    simp only [joinBytes, BitVec.toNat_or, BitVec.toNat_shiftLeft, BitVec.toNat_setWidth, BitVec.toNat_ofNat,
      Nat.or_mod_two_pow]
    rw [Nat.mod_eq_of_lt (a := hi.toNat) (by omega)]
  rw [e, ← Nat.shiftLeft_add_eq_or_of_lt h, Nat.shiftLeft_eq, BitVec.toNat_ofNat]
  omega

theorem highByte_toNat (w : Word) : (highByte w).toNat = w.toNat / 256 := by
  have := w.isLt
  simp [highByte, Nat.shiftRight_eq_div_pow]
  omega

theorem lowByte_toNat (w : Word) : (lowByte w).toNat = w.toNat % 256 := by
  simp [lowByte]

/-- A word is its two bytes joined. -/
@[simp] theorem joinBytes_highByte_lowByte (w : Word) : joinBytes (highByte w) (lowByte w) = w := by
  apply BitVec.eq_of_toNat_eq
  rw [joinBytes_toNat, highByte_toNat, lowByte_toNat]
  omega

/-- The table's bit numbering of a 16-bit row is the word's own. -/
theorem decodeTableWord_eq (w : Nat) : decodeTableWord 16 w =
    match decode (BitVec.ofNat 16 w) with
    | .instr i => some i
    | .unimplemented _ => none := by
  have h : BitVec.ofNat 16 (w % 2 ^ 16) = BitVec.ofNat 16 w := by
    apply BitVec.eq_of_toNat_eq; simp
  simp only [decodeTableWord, decodeBytes, joinBytes_highByte_lowByte, h]
  cases decode (BitVec.ofNat 16 w) <;> rfl

end Sys2Proof
end

