-- ==== Sys2Proof/Laws/Memory.lean ====
section
/-! SUPPORT. What the memory operations do: reading after writing, and that the canonical form is kept. -/

namespace Sys2Proof.Machine

variable {cfg : Config.Params}

@[simp] theorem memory_read_nil (a : Nat) : Memory.read [] a = Memory.unlisted := rfl

theorem memory_read_cons (c : Host.Cell) (m : Memory) (a : Nat) :
    Memory.read (c :: m) a = if c.1 = a then c.2 else Memory.read m a := rfl

/-- An address that no entry lists reads as an unlisted address. -/
theorem memory_read_unlisted {m : Memory} {a : Nat} (h : ∀ c ∈ m, c.1 ≠ a) : m.read a = Memory.unlisted := by
  induction m with
  | nil => rfl
  | cons c m ih =>
    rw [memory_read_cons, if_neg (h c (by simp)), ih fun d hd => h d (by simp [hd])]

theorem memory_read_erase (m : Memory) (a b : Nat) :
    (m.erase a).read b = if b = a then Memory.unlisted else m.read b := by
  unfold Memory.erase
  split
  next h =>
    subst h
    exact memory_read_unlisted fun c hc => by simpa using (List.mem_filter.mp hc).2
  next h =>
    induction m with
    | nil => rfl
    | cons c m ih =>
      rw [List.filter_cons, memory_read_cons]
      by_cases hc : c.1 = a
      · have hb : c.1 ≠ b := fun e => h (e.symm.trans hc)
        rw [if_neg (by simpa using hc), if_neg hb, ih]
      · rw [if_pos (by simpa using hc), memory_read_cons, ih]

theorem memory_read_insert (m : Memory) (a b : Nat) (v : Byte) :
    (m.insert a v).read b = if b = a then v else m.read b := by
  induction m with
  | nil => simp [Memory.insert, memory_read_cons, eq_comm]
  | cons c m ih =>
    simp only [Memory.insert]
    split
    · simp [memory_read_cons, eq_comm]
    · split
      next _ h =>
        subst h
        simp only [memory_read_cons, eq_comm]
        split <;> rfl
      next _ h =>
        simp only [memory_read_cons, ih]
        by_cases hb : c.1 = b
        · have : b ≠ a := fun e => h (e.symm.trans hb.symm)
          simp [hb, this]
        · simp [hb]

/-- A read after a write: the written byte at that address, every other address as before. -/
theorem memory_read_write (m : Memory) (a b : Nat) (v : Byte) :
    (m.write a v).read b = if b = a then v else m.read b := by
  unfold Memory.write
  split
  next h => rw [memory_read_erase, h]
  next => exact memory_read_insert m a b v

/-! ## The canonical form -/

variable {size : Nat}

theorem memory_wf_nil : Memory.wf [] size := by simp [Memory.wf]

theorem memory_erase_wf {m : Memory} (a : Nat) (h : m.wf size) : (m.erase a).wf size :=
  ⟨h.1.filter _, fun c hc => h.2 c (List.mem_filter.mp hc).1⟩

theorem memory_mem_insert {m : Memory} {a : Nat} {v : Byte} {c : Host.Cell} (h : c ∈ m.insert a v) :
    c = (a, v) ∨ c ∈ m := by
  induction m with
  | nil => simpa [Memory.insert] using h
  | cons d m ih =>
    simp only [Memory.insert] at h
    split at h
    · simpa using h
    · split at h
      · rcases List.mem_cons.mp h with h | h
        · exact .inl h
        · exact .inr (List.mem_cons_of_mem _ h)
      · rcases List.mem_cons.mp h with h | h
        · exact .inr (by simp [h])
        · exact (ih h).imp id (List.mem_cons_of_mem _)

theorem memory_insert_wf {m : Memory} {a : Nat} {v : Byte} (h : m.wf size) (ha : a < size)
    (hv : v ≠ Memory.unlisted) : (m.insert a v).wf size := by
  refine ⟨?_, fun c hc => ?_⟩
  · have hp := h.1
    clear h
    induction m with
    | nil => simp [Memory.insert]
    | cons d m ih =>
      obtain ⟨hd, hm⟩ := List.pairwise_cons.mp hp
      simp only [Memory.insert]
      split
      next hlt =>
        refine List.pairwise_cons.mpr ⟨fun c hc => ?_, hp⟩
        rcases List.mem_cons.mp hc with rfl | hc
        · exact hlt
        · exact hlt.trans (hd c hc)
      next hge =>
        split
        next heq => exact List.pairwise_cons.mpr ⟨fun c hc => heq ▸ hd c hc, hm⟩
        next hne =>
          refine List.pairwise_cons.mpr ⟨fun c hc => ?_, ih hm⟩
          rcases memory_mem_insert hc with rfl | hc
          · show d.1 < a
            omega
          · exact hd c hc
  · rcases memory_mem_insert hc with rfl | hc
    · exact ⟨ha, hv⟩
    · exact h.2 c hc

/-- A write to an address that exists keeps the canonical form. -/
theorem memory_write_wf {m : Memory} {a : Nat} (v : Byte) (h : m.wf size) (ha : a < size) :
    (m.write a v).wf size := by
  unfold Memory.write
  split
  · exact memory_erase_wf a h
  next hv => exact memory_insert_wf h ha hv

/-! ## The read and write paths -/

/-- What `memWrite` does: the address exists, and only that byte of memory changes. -/
theorem memWrite_some {s t : State cfg} {a : Nat} {v : Byte} (h : s.memWrite a v = some t) :
    a < cfg.memSize ∧ t = { s with mem := s.mem.write a v } := by
  unfold State.memWrite at h
  split at h
  next ha => exact ⟨ha, by simpa using h.symm⟩
  next => simp at h

theorem memWrite_readByte {s t : State cfg} {a : Nat} {v : Byte} (h : s.memWrite a v = some t) (b : Nat) :
    t.readByte b = if b = a then v else s.readByte b := by
  obtain ⟨-, rfl⟩ := memWrite_some h
  exact memory_read_write s.mem a b v

theorem memRead_eq_some {s : State cfg} {a : Nat} {v : Byte} :
    s.memRead a = some v ↔ a < cfg.memSize ∧ s.readByte a = v := by
  unfold State.memRead
  split <;> simp_all

end Sys2Proof.Machine
end

