-- ==== Sys2Proof/Laws/State.lean ====
section
/-! SUPPORT. One lemma for each field of State under each update of Machine/Ops.lean, true by unfolding, and the
constraints on the sizes. -/

namespace Sys2Proof.Machine

variable {cfg : Config.Params}

/-- The default sizes meet the constraints of 00_scope.md R9. -/
theorem defaults_sizesLegal : Config.defaults.sizesLegal := by decide

@[simp] theorem defaults_memSize : Config.defaults.memSize = Config.memSize := rfl
@[simp] theorem defaults_execBase : Config.defaults.execBase = Config.execBase := rfl
@[simp] theorem defaults_stackDepth : Config.defaults.stackDepth = Config.stackDepth := rfl
@[simp] theorem defaults_strictRegSkipNibble :
    Config.defaults.strictRegSkipNibble = Config.strictRegSkipNibble := rfl
@[simp] theorem defaults_shlSubop : Config.defaults.shlSubop = Config.shlSubop := rfl

/-! ## setReg -/

@[simp] theorem setReg_pc (s : State cfg) (i v) : (s.setReg i v).pc = s.pc := rfl
@[simp] theorem setReg_stack (s : State cfg) (i v) : (s.setReg i v).stack = s.stack := rfl
@[simp] theorem setReg_sp (s : State cfg) (i v) : (s.setReg i v).sp = s.sp := rfl
@[simp] theorem setReg_mem (s : State cfg) (i v) : (s.setReg i v).mem = s.mem := rfl
@[simp] theorem setReg_status (s : State cfg) (i v) : (s.setReg i v).status = s.status := rfl
@[simp] theorem setReg_slot (s : State cfg) (i v j) : (s.setReg i v).slot j = s.slot j := rfl
@[simp] theorem setReg_readByte (s : State cfg) (i v a) : (s.setReg i v).readByte a = s.readByte a := rfl

/-- A register reads as what was last written to it, and every other register as before. -/
@[simp] theorem setReg_reg (s : State cfg) (i : RegIdx) (v : Byte) (r : RegIdx) :
    (s.setReg i v).reg r = if r = i then v else s.reg r := by
  by_cases h : r = i
  · subst h; simp [State.reg, State.setReg]
  · have h' : i.val ≠ r.val := fun e => h (Fin.ext e.symm)
    simp [State.reg, State.setReg, h, h']

/-! ## setPc and advance -/

@[simp] theorem setPc_pc (s : State cfg) (t) : (s.setPc t).pc = t := rfl
@[simp] theorem setPc_regs (s : State cfg) (t) : (s.setPc t).regs = s.regs := rfl
@[simp] theorem setPc_stack (s : State cfg) (t) : (s.setPc t).stack = s.stack := rfl
@[simp] theorem setPc_sp (s : State cfg) (t) : (s.setPc t).sp = s.sp := rfl
@[simp] theorem setPc_mem (s : State cfg) (t) : (s.setPc t).mem = s.mem := rfl
@[simp] theorem setPc_status (s : State cfg) (t) : (s.setPc t).status = s.status := rfl
@[simp] theorem setPc_reg (s : State cfg) (t r) : (s.setPc t).reg r = s.reg r := rfl
@[simp] theorem setPc_slot (s : State cfg) (t j) : (s.setPc t).slot j = s.slot j := rfl
@[simp] theorem setPc_readByte (s : State cfg) (t a) : (s.setPc t).readByte a = s.readByte a := rfl

@[simp] theorem advance_pc (s : State cfg) : s.advance.pc = s.pc + 2#16 := rfl
@[simp] theorem advance_regs (s : State cfg) : s.advance.regs = s.regs := rfl
@[simp] theorem advance_stack (s : State cfg) : s.advance.stack = s.stack := rfl
@[simp] theorem advance_sp (s : State cfg) : s.advance.sp = s.sp := rfl
@[simp] theorem advance_mem (s : State cfg) : s.advance.mem = s.mem := rfl
@[simp] theorem advance_status (s : State cfg) : s.advance.status = s.status := rfl
@[simp] theorem advance_reg (s : State cfg) (r) : s.advance.reg r = s.reg r := rfl
@[simp] theorem advance_slot (s : State cfg) (j) : s.advance.slot j = s.slot j := rfl
@[simp] theorem advance_readByte (s : State cfg) (a) : s.advance.readByte a = s.readByte a := rfl

/-! ## writeResultAndFlag -/

@[simp] theorem writeResultAndFlag_pc (s : State cfg) (x v f) : (s.writeResultAndFlag x v f).pc = s.pc := rfl
@[simp] theorem writeResultAndFlag_stack (s : State cfg) (x v f) :
    (s.writeResultAndFlag x v f).stack = s.stack := rfl
@[simp] theorem writeResultAndFlag_sp (s : State cfg) (x v f) : (s.writeResultAndFlag x v f).sp = s.sp := rfl
@[simp] theorem writeResultAndFlag_mem (s : State cfg) (x v f) : (s.writeResultAndFlag x v f).mem = s.mem := rfl
@[simp] theorem writeResultAndFlag_status (s : State cfg) (x v f) :
    (s.writeResultAndFlag x v f).status = s.status := rfl
@[simp] theorem writeResultAndFlag_slot (s : State cfg) (x v f j) :
    (s.writeResultAndFlag x v f).slot j = s.slot j := rfl
@[simp] theorem writeResultAndFlag_readByte (s : State cfg) (x v f a) :
    (s.writeResultAndFlag x v f).readByte a = s.readByte a := rfl

/-- VF holds the flag, V[x] the result where x is not 0xF, and every other register is as before. -/
@[simp] theorem writeResultAndFlag_reg (s : State cfg) (x : RegIdx) (v f : Byte) (r : RegIdx) :
    (s.writeResultAndFlag x v f).reg r = if r = Config.flagReg then f else if r = x then v else s.reg r := by
  simp [State.writeResultAndFlag]

/-! ## The state after reset -/

@[simp] theorem resetFor_pc : (State.resetFor cfg).pc = BitVec.ofNat 16 cfg.execBase := rfl
@[simp] theorem resetFor_sp : (State.resetFor cfg).sp = 0 := rfl
@[simp] theorem resetFor_mem : (State.resetFor cfg).mem = [] := rfl
@[simp] theorem resetFor_status : (State.resetFor cfg).status = .idle := rfl
@[simp] theorem resetFor_reg (r : RegIdx) : (State.resetFor cfg).reg r = 0#8 := by simp [State.reg, State.resetFor]
@[simp] theorem resetFor_slot (j) : (State.resetFor cfg).slot j = 0#16 := by simp [State.slot, State.resetFor]
@[simp] theorem resetFor_readByte (a : Nat) : (State.resetFor cfg).readByte a = 0#8 := rfl

@[simp] theorem resetFor_defaults : State.resetFor Config.defaults = State.reset := rfl

@[simp] theorem reset_pc : State.reset.pc = 0x200#16 := rfl
@[simp] theorem reset_sp : State.reset.sp = 0 := rfl
@[simp] theorem reset_mem : State.reset.mem = [] := rfl
@[simp] theorem reset_status : State.reset.status = .idle := rfl
@[simp] theorem reset_reg (r : RegIdx) : State.reset.reg r = 0#8 := resetFor_reg r
@[simp] theorem reset_slot (j) : State.reset.slot j = 0#16 := resetFor_slot j
@[simp] theorem reset_readByte (a : Nat) : State.reset.readByte a = 0#8 := rfl

end Sys2Proof.Machine
end

