-- ==== Sys2Proof/Laws/Ops.lean ====
section
/-! SUPPORT. What the shared operations can do: the call stack, and the results and flags of the ALU. -/

namespace Sys2Proof.Machine

variable {cfg : Config.Params}

/-! ## The call stack -/

/-- `push` answers a state exactly when sp is below `STACK_DEPTH`. -/
theorem push_isSome (s : State cfg) (w : Word) : (s.push w).isSome ↔ s.sp.val < cfg.stackDepth := by
  unfold State.push
  split <;> simp_all

theorem push_eq_none {s : State cfg} {w : Word} : s.push w = none ↔ s.sp.val = cfg.stackDepth := by
  have := s.sp.isLt
  unfold State.push
  split
  next h => exact ⟨fun e => by simp at e, fun e => by omega⟩
  next h => exact ⟨fun _ => by omega, fun _ => rfl⟩

/-- Everything a push does. -/
theorem push_some {s t : State cfg} {w : Word} (h : s.push w = some t) :
    s.sp.val < cfg.stackDepth ∧ t.sp.val = s.sp.val + 1 ∧ t.regs = s.regs ∧ t.pc = s.pc ∧ t.mem = s.mem ∧
      t.status = s.status ∧ ∀ j, t.slot j = if j.val = s.sp.val then w else s.slot j := by
  unfold State.push at h
  split at h
  next hlt =>
    obtain rfl := Option.some.inj h
    refine ⟨hlt, rfl, rfl, rfl, rfl, rfl, fun j => ?_⟩
    simp [State.slot, Vector.getElem_set, eq_comm]
  next => simp at h

theorem pop_eq_none {s : State cfg} : s.pop = none ↔ s.sp.val = 0 := by
  unfold State.pop
  split
  next h => exact ⟨fun e => by simp at e, fun e => by omega⟩
  next h => exact ⟨fun _ => by omega, fun _ => rfl⟩

/-- Everything a pop does. -/
theorem pop_some {s t : State cfg} {w : Word} (h : s.pop = some (w, t)) :
    0 < s.sp.val ∧ t.sp.val + 1 = s.sp.val ∧ (∀ j : Fin cfg.stackDepth, j.val + 1 = s.sp.val → s.slot j = w) ∧
      t.regs = s.regs ∧ t.pc = s.pc ∧ t.stack = s.stack ∧ t.mem = s.mem ∧ t.status = s.status := by
  unfold State.pop at h
  split at h
  next hpos =>
    obtain ⟨rfl, rfl⟩ := Prod.mk.inj (Option.some.inj h)
    refine ⟨hpos, Nat.succ_pred_eq_of_pos hpos, fun j hj => ?_, rfl, rfl, rfl, rfl, rfl⟩
    have : j.val = s.sp.val - 1 := by omega
    simp [State.slot, this]
  next => simp at h

/-! ## The ALU -/

@[simp] theorem flagByte_eq_one {c : Bool} : flagByte c = 1#8 ↔ c = true := by cases c <;> decide
@[simp] theorem flagByte_eq_zero {c : Bool} : flagByte c = 0#8 ↔ c = false := by cases c <;> decide

theorem flagByte_zero_or_one (c : Bool) : flagByte c = 0#8 ∨ flagByte c = 1#8 := by cases c <;> decide

theorem addResult_toNat (a b : Byte) : (addResult a b).toNat = (a.toNat + b.toNat) % 256 := by
  simp [addResult]

theorem subResult_toNat (a b : Byte) : (subResult a b).toNat = (a.toNat + 256 - b.toNat) % 256 := by
  have := b.isLt
  simp only [subResult, BitVec.toNat_sub]
  omega

theorem shrResult_toNat (a : Byte) : (shrResult a).toNat = a.toNat / 2 := by
  simp [shrResult, Nat.shiftRight_eq_div_pow]

theorem shlResult_toNat (a : Byte) : (shlResult a).toNat = a.toNat * 2 % 256 := by
  simp [shlResult, Nat.shiftLeft_eq]

theorem shrFlag_toNat (a : Byte) : (shrFlag a).toNat = a.toNat % 2 := by
  simp [shrFlag, Nat.and_one_is_mod]

theorem shlFlag_toNat (a : Byte) : (shlFlag a).toNat = a.toNat / 128 := by
  have := a.isLt
  simp only [shlFlag, BitVec.toNat_and, BitVec.toNat_ushiftRight, Nat.shiftRight_eq_div_pow]
  simp [Nat.and_one_is_mod]
  omega

/-- An operand nnn names the address it spells. -/
@[simp] theorem targetOperand_toNat (nnn : Addr) : (targetOperand nnn).toNat = nnn.toNat := by
  have := nnn.isLt
  simp [targetOperand]
  omega

end Sys2Proof.Machine
end

