-- ==== Sys2Proof/Laws/Step.lean ====
section
/-! SUPPORT. What the fetch, an instruction and a step can do, said once. -/

namespace Sys2Proof.Machine

variable {cfg : Config.Params}

/-! ## The fetch -/

theorem fetchWord_eq_none {s : State cfg} : fetchWord s = none ↔ cfg.memSize ≤ s.pc.toNat + 1 := by
  unfold fetchWord
  split <;> simp_all

theorem fetchWord_eq_some {s : State cfg} {w : Word} : fetchWord s = some w ↔
    s.pc.toNat + 1 < cfg.memSize ∧ w = joinBytes (s.readByte s.pc.toNat) (s.readByte (s.pc.toNat + 1)) := by
  unfold fetchWord
  split
  · simp; omega
  · simp [eq_comm]; omega

/-! ## One instruction -/

/-- Everything an instruction can do: it always answers a next state, and that state differs from the one it
started from in the status alone (HALT and the faults), in the pc alone (JP and the skips), in the registers
alone, or as a CALL or a RET changes the stack. -/
theorem execFor_cases (i : Instr) (s : State cfg) :
    (i = .halt ∧ execFor i s = .next { s with status := .halted }) ∨
    (∃ f, execFor i s = .next { s with status := .faulted f } ∧
      ((∃ nnn, i = .call nnn ∧ nnn.toNat < cfg.execBase ∧ f = .reservedMemoryCall (targetOperand nnn)) ∨
       (∃ nnn, i = .call nnn ∧ cfg.execBase ≤ nnn.toNat ∧ s.sp.val = cfg.stackDepth ∧ f = .stackOverflow) ∨
       (i = .ret ∧ s.sp.val = 0 ∧ f = .stackUnderflow))) ∨
    (∃ p, execFor i s = .next (s.setPc p) ∧
      ((∃ nnn, i = .jp nnn ∧ p = targetOperand nnn) ∨ ((p = s.pc ∨ p = s.pc + 2#16) ∧
        ((∃ x kk, i = .seImm x kk) ∨ (∃ x kk, i = .sneImm x kk) ∨ (∃ x y, i = .seReg x y) ∨
         (∃ x y, i = .sneReg x y))))) ∨
    (∃ r, execFor i s = .next { s with regs := r } ∧ (∀ nnn, i ≠ .jp nnn) ∧ (∀ nnn, i ≠ .call nnn) ∧
      i ≠ .halt ∧ i ≠ .ret) ∨
    (∃ nnn u, i = .call nnn ∧ cfg.execBase ≤ nnn.toNat ∧ s.push s.pc = some u ∧
      execFor i s = .next (u.setPc (targetOperand nnn))) ∨
    (∃ w u, i = .ret ∧ s.pop = some (w, u) ∧ execFor i s = .next (u.setPc w)) := by
  have skip : ∀ c : Bool, ∃ p, skipIf c s = .next (s.setPc p) ∧ (p = s.pc ∨ p = s.pc + 2#16) := by
    intro c
    cases c
    · exact ⟨s.pc, rfl, .inl rfl⟩
    · exact ⟨s.pc + 2#16, rfl, .inr rfl⟩
  cases i with
  | halt => exact .inl ⟨rfl, rfl⟩
  | ret =>
    cases h : s.pop with
    | none =>
      exact .inr (.inl ⟨.stackUnderflow, by simp [execFor, execRet, h, raiseFault],
        .inr (.inr ⟨rfl, pop_eq_none.mp h, rfl⟩)⟩)
    | some p => exact .inr (.inr (.inr (.inr (.inr ⟨p.1, p.2, rfl, rfl, by simp [execFor, execRet, h]⟩))))
  | jp nnn => exact .inr (.inr (.inl ⟨targetOperand nnn, rfl, .inl ⟨nnn, rfl, rfl⟩⟩))
  | call nnn =>
    by_cases ht : nnn.toNat < cfg.execBase
    · exact .inr (.inl ⟨_, by simp only [execFor, execCall, targetOperand_toNat, if_pos ht, raiseFault],
        .inl ⟨nnn, rfl, ht, rfl⟩⟩)
    · cases h : s.push s.pc with
      | none =>
        exact .inr (.inl ⟨.stackOverflow, by simp only [execFor, execCall, targetOperand_toNat, if_neg ht, h, raiseFault],
          .inr (.inl ⟨nnn, rfl, Nat.le_of_not_lt ht, push_eq_none.mp h, rfl⟩)⟩)
      | some u =>
        exact .inr (.inr (.inr (.inr (.inl ⟨nnn, u, rfl, Nat.le_of_not_lt ht, rfl,
          by simp only [execFor, execCall, targetOperand_toNat, if_neg ht, h]⟩))))
  | seImm x kk => obtain ⟨p, h, hp⟩ := skip _; exact .inr (.inr (.inl ⟨p, h, .inr ⟨hp, .inl ⟨x, kk, rfl⟩⟩⟩))
  | sneImm x kk =>
    obtain ⟨p, h, hp⟩ := skip _; exact .inr (.inr (.inl ⟨p, h, .inr ⟨hp, .inr (.inl ⟨x, kk, rfl⟩)⟩⟩))
  | seReg x y =>
    obtain ⟨p, h, hp⟩ := skip _; exact .inr (.inr (.inl ⟨p, h, .inr ⟨hp, .inr (.inr (.inl ⟨x, y, rfl⟩))⟩⟩))
  | sneReg x y =>
    obtain ⟨p, h, hp⟩ := skip _; exact .inr (.inr (.inl ⟨p, h, .inr ⟨hp, .inr (.inr (.inr ⟨x, y, rfl⟩))⟩⟩))
  | ldImm | addImm | ldReg | orReg | andReg | xorReg | addReg | sub | shr | subn | shl =>
    exact .inr (.inr (.inr (.inl ⟨_, rfl, by simp, by simp, by simp, by simp⟩)))

/-- With the default parameters the dispatch of Machine/Dispatch.lean is that of any parameters. -/
theorem exec_eq_execFor (i : Instr) (s : State) : exec i s = execFor i s := by cases i <;> rfl

/-- Everything an instruction of the machine with the default parameters can do. -/
theorem exec_cases (i : Instr) (s : State) :
    (i = .halt ∧ exec i s = .next { s with status := .halted }) ∨
    (∃ f, exec i s = .next { s with status := .faulted f } ∧
      ((∃ nnn, i = .call nnn ∧ nnn.toNat < Config.execBase ∧ f = .reservedMemoryCall (targetOperand nnn)) ∨
       (∃ nnn, i = .call nnn ∧ Config.execBase ≤ nnn.toNat ∧ s.sp.val = Config.stackDepth ∧ f = .stackOverflow) ∨
       (i = .ret ∧ s.sp.val = 0 ∧ f = .stackUnderflow))) ∨
    (∃ p, exec i s = .next (s.setPc p) ∧
      ((∃ nnn, i = .jp nnn ∧ p = targetOperand nnn) ∨ ((p = s.pc ∨ p = s.pc + 2#16) ∧
        ((∃ x kk, i = .seImm x kk) ∨ (∃ x kk, i = .sneImm x kk) ∨ (∃ x y, i = .seReg x y) ∨
         (∃ x y, i = .sneReg x y))))) ∨
    (∃ r, exec i s = .next { s with regs := r } ∧ (∀ nnn, i ≠ .jp nnn) ∧ (∀ nnn, i ≠ .call nnn) ∧
      i ≠ .halt ∧ i ≠ .ret) ∨
    (∃ nnn u, i = .call nnn ∧ Config.execBase ≤ nnn.toNat ∧ s.push s.pc = some u ∧
      exec i s = .next (u.setPc (targetOperand nnn))) ∨
    (∃ w u, i = .ret ∧ s.pop = some (w, u) ∧ exec i s = .next (u.setPc w)) :=
  exec_eq_execFor i s ▸ execFor_cases i s

/-! ## One step -/

/-- A word that is no instruction is rejected as that very word. -/
theorem decodeFor_unimplemented {w v : Word} (h : decodeFor cfg w = .unimplemented v) : v = w := by
  unfold decodeFor decodeWith decodeGroup8 at h
  repeat' split at h
  all_goals simp_all

/-- What a step of a Running machine is, whatever the dispatch. -/
theorem cycleWith_running (run : Instr → State cfg → Result cfg) {s : State cfg} (h : s.status = .running) :
    cycleWith run s = runningStepWith run s := by
  simp [cycleWith, h]

/-- Everything a step can do, whatever the dispatch: it answers a next state exactly from a Running state, and that
state is the fetch fault's, the unimplemented word's, or the one the decoded instruction gives from the advanced pc. -/
theorem cycleWith_cases {run : Instr → State cfg → Result cfg} {s t : State cfg} (h : cycleWith run s = .next t) :
    s.status = .running ∧
    ((cfg.memSize ≤ s.pc.toNat + 1 ∧ t = { s with status := .faulted (.outOfBoundsFetch s.pc) }) ∨
     (∃ w, fetchWord s = some w ∧ decodeFor cfg w = .unimplemented w ∧
       t = { s.advance with status := .faulted (.unimplementedInstruction w) }) ∨
     (∃ w i, fetchWord s = some w ∧ decodeFor cfg w = .instr i ∧ run i s.advance = .next t)) := by
  have hs : s.status = .running := by
    unfold cycleWith at h
    split at h <;> simp_all
  refine ⟨hs, ?_⟩
  rw [cycleWith_running run hs, runningStepWith] at h
  cases hw : fetchWord s with
  | none =>
    rw [hw] at h
    exact .inl ⟨fetchWord_eq_none.mp hw, by simpa [raiseFault] using h.symm⟩
  | some w =>
    rw [hw] at h
    cases hd : decodeFor cfg w with
    | instr i => exact .inr (.inr ⟨w, i, rfl, hd, by simpa [hd, executeWith] using h⟩)
    | unimplemented v =>
      obtain rfl := decodeFor_unimplemented hd
      exact .inr (.inl ⟨v, rfl, hd, by simpa [hd, executeWith, raiseFault] using h.symm⟩)

/-- With the default parameters the decoder is that of any parameters. -/
theorem decode_eq_decodeFor (w : Word) : decode w = decodeFor Config.defaults w := rfl

/-- With the default parameters the step of Machine/Step.lean is that of any parameters. -/
theorem step_eq_stepFor (s : State) : step s = stepFor s := by
  have h : exec = execFor (cfg := Config.defaults) := funext fun i => funext fun s => exec_eq_execFor i s
  simp only [step, cycle, stepFor, h]

@[simp] theorem execute_instr (i : Instr) (s : State) : execute (.instr i) s = exec i s := rfl

@[simp] theorem execute_unimplemented (w : Word) (s : State) :
    execute (.unimplemented w) s = .next { s with status := .faulted (.unimplementedInstruction w) } := rfl

/-- The step of a Running machine (R85). -/
theorem step_running {s : State} (h : s.status = .running) : step s =
    match fetchWord s with
    | none => raiseFault (.outOfBoundsFetch s.pc) s
    | some w => execute (decode w) s.advance :=
  cycleWith_running exec h

/-- In another status than Running no step is taken (R87). -/
theorem step_of_faulted {s : State} {f : Fault} (h : s.status = .faulted f) : step s = .fault f := by
  simp [step, cycle, cycleWith, h]

theorem step_of_idle_or_halted {s : State} (h : s.status = .idle ∨ s.status = .halted) :
    step s = .refused .notRunning := by
  rcases h with h | h <;> simp [step, cycle, cycleWith, h]

/-- Everything a step of the machine with the default parameters can do. -/
theorem step_cases {s t : State} (h : step s = .next t) :
    s.status = .running ∧
    ((Config.memSize ≤ s.pc.toNat + 1 ∧ t = { s with status := .faulted (.outOfBoundsFetch s.pc) }) ∨
     (∃ w, fetchWord s = some w ∧ decode w = .unimplemented w ∧
       t = { s.advance with status := .faulted (.unimplementedInstruction w) }) ∨
     (∃ w i, fetchWord s = some w ∧ decode w = .instr i ∧ exec i s.advance = .next t)) :=
  cycleWith_cases h

end Sys2Proof.Machine
end

