-- ==== Sys2Proof/Laws/Host.lean ====
section
/-! SUPPORT. What the host port can do, and that `withFetchWord` places the word that the next step runs. -/

namespace Sys2Proof.Machine

variable {cfg : Config.Params}

/-! ## withFetchWord -/

theorem fetchablePc_lt (s : State) : (fetchablePc s).toNat + 1 < Config.memSize := by
  unfold fetchablePc
  split
  · decide
  next h => exact Nat.lt_of_not_le h

theorem fetchWord_placeWord (s : State) (w : Word) : fetchWord (placeWord s w) = some w := by
  have h := fetchablePc_lt s
  refine fetchWord_eq_some.mpr ⟨h, ?_⟩
  simp only [placeWord, State.readByte, memory_read_write]
  simp

/-- The next step fetches and runs exactly the placed word. -/
theorem step_withFetchWord (s : State) (w : Nat) :
    step (s.withFetchWord 16 w) =
      execute (decode (BitVec.ofNat 16 w)) (s.withFetchWord 16 w).advance := by
  have h : BitVec.ofNat 16 (w % 2 ^ 16) = BitVec.ofNat 16 w := by
    apply BitVec.eq_of_toNat_eq; simp
  unfold State.withFetchWord
  rw [step_running rfl, fetchWord_placeWord, h]

/-! ## The run loop -/

/-- One turn of the run loop of the machine with the default parameters (R86). -/
theorem runLoop_succ (fuel : Nat) (s : State) : runLoop (fuel + 1) s =
    match step s with
    | .next t =>
      match t.status with
      | .halted => .success t
      | .faulted f => .failure f t
      | .running => runLoop fuel t
      | .idle => .refused .notRunning
    | .fault f => .failure f s
    | .refused r => .refused r := by
  rw [step_eq_stepFor, runLoop]
  cases stepFor s with
  | next t => cases h : t.status <;> simp only [h]
  | fault f => rfl
  | refused r => rfl

/-! ## The host port -/

theorem whenNotRunning_next {s : State cfg} {r : HostResult cfg} {p} (h : whenNotRunning s r = .next p) :
    s.status ≠ .running ∧ r = .next p := by
  unfold whenNotRunning at h
  split at h
  · simp at h
  next hs => exact ⟨hs, h⟩

/-- Everything a host operation that is carried out does to the state. -/
theorem hostOp_cases {op : HostOp} {s t : State cfg} {r : HostReply} (h : hostOp op s = .next (t, r)) :
    (∃ i v, op = .writeReg i.val v ∧ s.status ≠ .running ∧ t = s.setReg i v) ∨
    (∃ a v, op = .writeMem a v ∧ s.status ≠ .running ∧ a < cfg.memSize ∧
      t = { s with mem := s.mem.write a v }) ∨
    (op = .reset ∧ s.status ≠ .running ∧ t = State.resetFor cfg) ∨
    (op = .run ∧ (s.status = .idle ∨ s.status = .halted) ∧ t = { s with status := .running }) ∨
    (t = s ∧ (op = .readStatus ∨ s.status ≠ .running) ∧ op ≠ .reset ∧ op ≠ .run ∧
      (∀ i v, op ≠ .writeReg i v) ∧ ∀ a v, op ≠ .writeMem a v) := by
  cases op with
  | writeReg i v =>
    obtain ⟨hs, h⟩ := whenNotRunning_next h
    split at h
    next hi => exact .inl ⟨⟨i, hi⟩, v, rfl, hs, by simp_all⟩
    next => simp at h
  | writeMem a v =>
    obtain ⟨hs, h⟩ := whenNotRunning_next h
    split at h
    next s' hw =>
      obtain ⟨ha, rfl⟩ := memWrite_some hw
      exact .inr (.inl ⟨a, v, rfl, hs, ha, by simp_all⟩)
    next => simp at h
  | reset =>
    obtain ⟨hs, h⟩ := whenNotRunning_next h
    exact .inr (.inr (.inl ⟨rfl, hs, by simp_all [State.toReset]⟩))
  | run =>
    simp only [hostOp, hostRun] at h
    refine .inr (.inr (.inr (.inl ⟨rfl, ?_⟩)))
    split at h <;> simp_all
  | readStatus =>
    simp only [hostOp, hostReadStatus] at h
    exact .inr (.inr (.inr (.inr (by simp_all))))
  | readReg i =>
    obtain ⟨hs, h⟩ := whenNotRunning_next h
    split at h
    · exact .inr (.inr (.inr (.inr (by simp_all))))
    · simp at h
  | readMem a =>
    obtain ⟨hs, h⟩ := whenNotRunning_next h
    split at h
    · exact .inr (.inr (.inr (.inr (by simp_all))))
    · simp at h
  | readPc =>
    obtain ⟨hs, h⟩ := whenNotRunning_next h
    exact .inr (.inr (.inr (.inr (by simp_all))))
  | readSp =>
    obtain ⟨hs, h⟩ := whenNotRunning_next h
    exact .inr (.inr (.inr (.inr (by simp_all))))

end Sys2Proof.Machine
end

