-- ==== Sys2Proof/Laws/PerInstr.lean ====
section
/-! SUPPORT. Statements about every instruction as syntax, one lemma for each constructor: that it is well formed,
and that the word it encodes to has its row's fixed bits (spec 30_encoding.md R66, R67). -/

namespace Sys2Proof.Laws

/-- The operands of an instruction fit their fields. -/
def WellFormed.Statement (i : Instr) : Prop := i.wellFormed = true

theorem WellFormed.halt : WellFormed.Statement .halt := rfl
theorem WellFormed.ret : WellFormed.Statement .ret := rfl
theorem WellFormed.jp (nnn : Addr) : WellFormed.Statement (.jp nnn) := decide_eq_true nnn.isLt
theorem WellFormed.call (nnn : Addr) : WellFormed.Statement (.call nnn) := decide_eq_true nnn.isLt

/-- A register and a byte fit. -/
theorem fits_reg_byte (x : RegIdx) (kk : Byte) : (fitsReg x.val && fitsByte kk.toNat) = true := by
  rw [Bool.and_eq_true]; exact ⟨decide_eq_true x.isLt, decide_eq_true kk.isLt⟩

/-- Two registers fit. -/
theorem fits_reg_reg (x y : RegIdx) : (fitsReg x.val && fitsReg y.val) = true := by
  rw [Bool.and_eq_true]; exact ⟨decide_eq_true x.isLt, decide_eq_true y.isLt⟩

theorem WellFormed.seImm (x : RegIdx) (kk : Byte) : WellFormed.Statement (.seImm x kk) := fits_reg_byte x kk
theorem WellFormed.sneImm (x : RegIdx) (kk : Byte) : WellFormed.Statement (.sneImm x kk) := fits_reg_byte x kk
theorem WellFormed.seReg (x y : RegIdx) : WellFormed.Statement (.seReg x y) := fits_reg_reg x y
theorem WellFormed.ldImm (x : RegIdx) (kk : Byte) : WellFormed.Statement (.ldImm x kk) := fits_reg_byte x kk
theorem WellFormed.addImm (x : RegIdx) (kk : Byte) : WellFormed.Statement (.addImm x kk) := fits_reg_byte x kk
theorem WellFormed.ldReg (x y : RegIdx) : WellFormed.Statement (.ldReg x y) := fits_reg_reg x y
theorem WellFormed.orReg (x y : RegIdx) : WellFormed.Statement (.orReg x y) := fits_reg_reg x y
theorem WellFormed.andReg (x y : RegIdx) : WellFormed.Statement (.andReg x y) := fits_reg_reg x y
theorem WellFormed.xorReg (x y : RegIdx) : WellFormed.Statement (.xorReg x y) := fits_reg_reg x y
theorem WellFormed.addReg (x y : RegIdx) : WellFormed.Statement (.addReg x y) := fits_reg_reg x y
theorem WellFormed.sub (x y : RegIdx) : WellFormed.Statement (.sub x y) := fits_reg_reg x y
theorem WellFormed.shr (x : RegIdx) : WellFormed.Statement (.shr x) := decide_eq_true x.isLt
theorem WellFormed.subn (x y : RegIdx) : WellFormed.Statement (.subn x y) := fits_reg_reg x y
theorem WellFormed.shl (x : RegIdx) : WellFormed.Statement (.shl x) := decide_eq_true x.isLt
theorem WellFormed.sneReg (x y : RegIdx) : WellFormed.Statement (.sneReg x y) := fits_reg_reg x y

/-- The group and, in groups 5, 8 and 9, the subop of an instruction's row (R66, R67). -/
def rowBits : Instr → Nat × Option Nat
  | .halt => (0, none)
  | .ret => (0, none)
  | .jp _ => (1, none)
  | .call _ => (2, none)
  | .seImm _ _ => (3, none)
  | .sneImm _ _ => (4, none)
  | .seReg _ _ => (5, some 0)
  | .ldImm _ _ => (6, none)
  | .addImm _ _ => (7, none)
  | .ldReg _ _ => (8, some 0)
  | .orReg _ _ => (8, some 1)
  | .andReg _ _ => (8, some 2)
  | .xorReg _ _ => (8, some 3)
  | .addReg _ _ => (8, some 4)
  | .sub _ _ => (8, some 5)
  | .shr _ => (8, some 6)
  | .subn _ _ => (8, some 7)
  | .shl _ => (8, some 8)
  | .sneReg _ _ => (9, some 0)

/-- The encoded word has the fixed bits of its row. -/
def FixedBits.Statement (i : Instr) : Prop :=
  (fieldGroup (encode i)).toNat = (rowBits i).1 ∧ ∀ n, (rowBits i).2 = some n → (fieldSubop (encode i)).toNat = n

theorem fixedBits_xkk (g : BitVec 4) (x : RegIdx) (kk : Byte) : (fieldGroup (wordXKk g x kk)).toNat = g.toNat := by
  have := g.isLt; have := x.isLt; have := kk.isLt
  rw [fieldGroup_toNat, wordXKk_toNat]; omega

theorem fixedBits_xy (g : BitVec 4) (x y : RegIdx) (n : BitVec 4) : (fieldGroup (wordXY g x y n)).toNat = g.toNat ∧
    (fieldSubop (wordXY g x y n)).toNat = n.toNat := by
  have := g.isLt; have := x.isLt; have := y.isLt; have := n.isLt
  rw [fieldGroup_toNat, fieldSubop_toNat, wordXY_toNat]; omega

theorem fixedBits_nnn (g : BitVec 4) (nnn : Addr) : (fieldGroup (wordNnn g nnn)).toNat = g.toNat := by
  have := g.isLt; have := nnn.isLt
  rw [fieldGroup_toNat, wordNnn_toNat]; omega

theorem FixedBits.halt : FixedBits.Statement .halt := ⟨rfl, nofun⟩
theorem FixedBits.ret : FixedBits.Statement .ret := ⟨rfl, nofun⟩
theorem FixedBits.jp (nnn : Addr) : FixedBits.Statement (.jp nnn) := ⟨fixedBits_nnn _ nnn, nofun⟩
theorem FixedBits.call (nnn : Addr) : FixedBits.Statement (.call nnn) := ⟨fixedBits_nnn _ nnn, nofun⟩
theorem FixedBits.seImm (x : RegIdx) (kk : Byte) : FixedBits.Statement (.seImm x kk) := ⟨fixedBits_xkk _ x kk, nofun⟩
theorem FixedBits.sneImm (x : RegIdx) (kk : Byte) : FixedBits.Statement (.sneImm x kk) := ⟨fixedBits_xkk _ x kk, nofun⟩
theorem FixedBits.ldImm (x : RegIdx) (kk : Byte) : FixedBits.Statement (.ldImm x kk) := ⟨fixedBits_xkk _ x kk, nofun⟩
theorem FixedBits.addImm (x : RegIdx) (kk : Byte) : FixedBits.Statement (.addImm x kk) := ⟨fixedBits_xkk _ x kk, nofun⟩

/-- From the bits of a word of the form group, x, y, subop to the statement. -/
theorem fixedBits_of_xy {i : Instr} {g n : BitVec 4} {x y : RegIdx} (h : encode i = wordXY g x y n)
    (hr : rowBits i = (g.toNat, some n.toNat)) : FixedBits.Statement i := by
  obtain ⟨hg, hn⟩ := fixedBits_xy g x y n
  unfold FixedBits.Statement
  rw [h, hr]
  exact ⟨hg, fun m hm => hn.trans (Option.some.inj hm)⟩

theorem FixedBits.seReg (x y : RegIdx) : FixedBits.Statement (.seReg x y) := fixedBits_of_xy rfl rfl
theorem FixedBits.ldReg (x y : RegIdx) : FixedBits.Statement (.ldReg x y) := fixedBits_of_xy rfl rfl
theorem FixedBits.orReg (x y : RegIdx) : FixedBits.Statement (.orReg x y) := fixedBits_of_xy rfl rfl
theorem FixedBits.andReg (x y : RegIdx) : FixedBits.Statement (.andReg x y) := fixedBits_of_xy rfl rfl
theorem FixedBits.xorReg (x y : RegIdx) : FixedBits.Statement (.xorReg x y) := fixedBits_of_xy rfl rfl
theorem FixedBits.addReg (x y : RegIdx) : FixedBits.Statement (.addReg x y) := fixedBits_of_xy rfl rfl
theorem FixedBits.sub (x y : RegIdx) : FixedBits.Statement (.sub x y) := fixedBits_of_xy rfl rfl
theorem FixedBits.shr (x : RegIdx) : FixedBits.Statement (.shr x) := fixedBits_of_xy (x := x) (y := 0) rfl rfl
theorem FixedBits.subn (x y : RegIdx) : FixedBits.Statement (.subn x y) := fixedBits_of_xy rfl rfl
theorem FixedBits.shl (x : RegIdx) : FixedBits.Statement (.shl x) := fixedBits_of_xy (x := x) (y := 0) rfl rfl
theorem FixedBits.sneReg (x y : RegIdx) : FixedBits.Statement (.sneReg x y) := fixedBits_of_xy rfl rfl

end Sys2Proof.Laws
end

