-- ==== Sys2Proof/Tests/Slice0.lean ====
section
/-! SUPPORT. Tests: ill-formed lines are refused, words of the spec's encodings decode, one step of each instruction
(expected values from spec/95_test_vectors.md, whose vector is named in each comment), and for each statement with
hypotheses a state and operands that meet them. -/

namespace Sys2Proof.Tests

open Sys2Proof Sys2Proof.Machine

/-! ## Well-formedness (30_encoding.md R71): each check refuses -/

theorem test_register_16_refused : AsmLine.wellFormed ⟨.shr, [.reg 16]⟩ = false := by decide
theorem test_second_register_16_refused : AsmLine.wellFormed ⟨.ld, [.reg 15, .reg 16]⟩ = false := by decide
theorem test_byte_256_refused : AsmLine.wellFormed ⟨.ld, [.reg 0, .num 256]⟩ = false := by decide
theorem test_address_4096_refused : AsmLine.wellFormed ⟨.jp, [.num 4096]⟩ = false := by decide
theorem test_word_65536_refused : AsmLine.wellFormed ⟨.dw, [.num 65536]⟩ = false := by decide
theorem test_wrong_operands_refused : AsmLine.wellFormed ⟨.halt, [.reg 0]⟩ = false ∧
    AsmLine.wellFormed ⟨.or, [.reg 0, .num 1]⟩ = false := by decide
theorem test_largest_operands_accepted : AsmLine.wellFormed ⟨.ld, [.reg 15, .num 255]⟩ = true ∧
    AsmLine.wellFormed ⟨.call, [.num 4095]⟩ = true ∧ AsmLine.wellFormed ⟨.dw, [.num 65535]⟩ = true := by decide

/-! ## Decoding: words written out from R66 and R67 (group x y n), one for each constructor -/

theorem test_decode_halt : decode 0b0000_0000_0000_0000#16 = .instr .halt := by decide
theorem test_decode_ret : decode 0b0000_0000_1110_1110#16 = .instr .ret := by decide
theorem test_decode_jp : decode 0b0001_1010_1011_1100#16 = .instr (.jp 0xABC#12) := by decide
theorem test_decode_call : decode 0b0010_0100_0000_0001#16 = .instr (.call 0x401#12) := by decide
theorem test_decode_seImm : decode 0b0011_1111_0000_0101#16 = .instr (.seImm 15 0x05#8) := by decide
theorem test_decode_sneImm : decode 0b0100_0001_1000_0010#16 = .instr (.sneImm 1 0x82#8) := by decide
theorem test_decode_seReg : decode 0b0101_0001_0010_0000#16 = .instr (.seReg 1 2) := by decide
theorem test_decode_ldImm : decode 0b0110_1010_0100_0010#16 = .instr (.ldImm 10 0x42#8) := by decide
theorem test_decode_addImm : decode 0b0111_1111_0000_0001#16 = .instr (.addImm 15 0x01#8) := by decide
theorem test_decode_ldReg : decode 0b1000_0010_0101_0000#16 = .instr (.ldReg 2 5) := by decide
theorem test_decode_orReg : decode 0b1000_0000_0001_0001#16 = .instr (.orReg 0 1) := by decide
theorem test_decode_andReg : decode 0b1000_0000_0001_0010#16 = .instr (.andReg 0 1) := by decide
theorem test_decode_xorReg : decode 0b1000_1111_0010_0011#16 = .instr (.xorReg 15 2) := by decide
theorem test_decode_addReg : decode 0b1000_0010_1111_0100#16 = .instr (.addReg 2 15) := by decide
theorem test_decode_sub : decode 0b1000_0000_0001_0101#16 = .instr (.sub 0 1) := by decide
theorem test_decode_shr : decode 0b1000_0011_0101_0110#16 = .instr (.shr 3) := by decide
theorem test_decode_subn : decode 0b1000_0001_0000_0111#16 = .instr (.subn 1 0) := by decide
theorem test_decode_shl : decode 0b1000_0010_0001_1000#16 = .instr (.shl 2) := by decide
theorem test_decode_sneReg : decode 0b1001_0001_0010_0000#16 = .instr (.sneReg 1 2) := by decide

/-- U1, U4, U5 (group 0), U6, U7 (group 8), U9, U11 (groups A, F), U12, U13 (groups 5, 9). -/
theorem test_unimplemented_words : decode 0x0001#16 = .unimplemented 0x0001#16 ∧
    decode 0x00EF#16 = .unimplemented 0x00EF#16 ∧ decode 0x0FFF#16 = .unimplemented 0x0FFF#16 ∧
    decode 0x8009#16 = .unimplemented 0x8009#16 ∧ decode 0x800E#16 = .unimplemented 0x800E#16 ∧
    decode 0xA123#16 = .unimplemented 0xA123#16 ∧ decode 0xFFFF#16 = .unimplemented 0xFFFF#16 ∧
    decode 0x5121#16 = .unimplemented 0x5121#16 ∧ decode 0x912F#16 = .unimplemented 0x912F#16 := by decide

/-- "With STRICT_REG_SKIP_NIBBLE = false, 5121 executes as SE V1, V2 and 912F as SNE V1, V2" (section 2.2). -/
theorem test_lenient_nibble : decodeWith false 0x8#4 0x5121#16 = .instr (.seReg 1 2) ∧
    decodeWith false 0x8#4 0x912F#16 = .instr (.sneReg 1 2) := by decide

theorem test_decodeTableWord : decodeTableWord 16 0x2000 = some (.call 0#12) ∧ decodeTableWord 16 0x00E0 = none := by
  decide

/-! ## One step of each instruction -/

/-- The state after the step that runs the word `w` at the pc of `s`. -/
def after (w : Nat) (s : State) : State :=
  match step (s.withFetchWord 16 w) with
  | .next t => t
  | _ => s

/-- Reset with two registers set. -/
def regs (x : RegIdx) (a : Byte) (y : RegIdx) (b : Byte) : State := (State.reset.setReg x a).setReg y b

/-- Reset with the given slot 0 and one return address on the stack. -/
def oneCall (ret : Word) : State := { State.reset with stack := State.reset.stack.set 0 ret, sp := 1 }

/-- CF1. -/
theorem test_halt : (after 0x0000 State.reset).status = .halted ∧ (after 0x0000 State.reset).pc = 0x202#16 := by decide
/-- CF4. -/
theorem test_ret : let t := after 0x00EE (oneCall 0x202#16)
    t.pc = 0x202#16 ∧ t.sp = 0 ∧ t.slot 0 = 0x202#16 ∧ t.status = .running := by decide
/-- CF3. -/
theorem test_ret_underflow : let t := after 0x00EE State.reset
    t.status = .faulted .stackUnderflow ∧ t.pc = 0x202#16 ∧ t.sp = 0 := by decide
/-- CF8. -/
theorem test_jp : (after 0x1FFF State.reset).pc = 0xFFF#16 ∧ (after 0x1FFF State.reset).status = .running := by decide
/-- CF7. -/
theorem test_jp_reserved : (after 0x1000 State.reset).pc = 0x000#16 ∧
    (after 0x1000 State.reset).status = .running := by decide
/-- CF11. -/
theorem test_call : let t := after 0x2200 State.reset
    t.pc = 0x200#16 ∧ t.sp = 1 ∧ t.slot 0 = 0x202#16 ∧ t.status = .running := by decide
/-- CF15, CF14. -/
theorem test_call_faults : let s := { State.reset with sp := 32 }
    (after 0x2100 s).status = .faulted (.reservedMemoryCall 0x100#16) ∧
    (after 0x2400 s).status = .faulted .stackOverflow ∧ (after 0x2400 s).pc = 0x202#16 := by decide
/-- SK13, SK2. -/
theorem test_seImm : (after 0x3F01 (regs 15 1 0 0)).pc = 0x204#16 ∧ (after 0x3005 (regs 0 6 1 0)).pc = 0x202#16 := by
  decide
/-- SK3, SK4. -/
theorem test_sneImm : (after 0x4005 (regs 0 5 1 0)).pc = 0x202#16 ∧ (after 0x4005 (regs 0 6 1 0)).pc = 0x204#16 := by
  decide
/-- SK5, SK6. -/
theorem test_seReg : (after 0x5120 (regs 1 7 2 7)).pc = 0x204#16 ∧ (after 0x5120 (regs 1 7 2 8)).pc = 0x202#16 := by
  decide
/-- SK8, SK10. -/
theorem test_sneReg : (after 0x9120 (regs 1 7 2 8)).pc = 0x204#16 ∧ (after 0x9110 (regs 1 9 2 0)).pc = 0x202#16 := by
  decide
/-- LI1. -/
theorem test_ldImm : (after 0x6A42 (regs 15 7 0 0)).reg 10 = 0x42#8 ∧ (after 0x6A42 (regs 15 7 0 0)).reg 15 = 7#8 := by
  decide
/-- AI5, AI8. -/
theorem test_addImm : let t := after 0x70FF (regs 0 0x10 1 0)
    t.reg 0 = 0x0F#8 ∧ t.reg 15 = 1#8 ∧ (after 0x7F01 (regs 15 0xFF 0 0)).reg 15 = 1#8 := by decide
/-- LG7. -/
theorem test_ldReg : let t := after 0x8250 (regs 2 0x11 5 0x3C)
    t.reg 2 = 0x3C#8 ∧ t.reg 5 = 0x3C#8 := by decide
/-- LG1 to LG3. -/
theorem test_logic : (after 0x8011 (regs 0 0xF0 1 0x0F)).reg 0 = 0xFF#8 ∧
    (after 0x8012 (regs 0 0xF0 1 0x3C)).reg 0 = 0x30#8 ∧ (after 0x8013 (regs 0 0xFF 1 0x0F)).reg 0 = 0xF0#8 := by decide
/-- AD3, AD11. -/
theorem test_addReg : let t := after 0x8014 (regs 0 0xFF 1 0x01)
    let u := after 0x82F4 (regs 2 0x10 15 0xF5)
    t.reg 0 = 0#8 ∧ t.reg 15 = 1#8 ∧ u.reg 2 = 0x05#8 ∧ u.reg 15 = 1#8 := by decide
/-- SB2, SB3. -/
theorem test_sub : let t := after 0x8015 (regs 0 3 1 5)
    let u := after 0x8015 (regs 0 5 1 5)
    t.reg 0 = 0xFE#8 ∧ t.reg 15 = 0#8 ∧ u.reg 0 = 0#8 ∧ u.reg 15 = 1#8 := by decide
/-- SR8, SR7. -/
theorem test_shr : let t := after 0x8356 (regs 3 0x81 5 0)
    t.reg 3 = 0x40#8 ∧ t.reg 15 = 1#8 ∧ (after 0x8F06 (regs 15 3 0 0)).reg 15 = 1#8 := by decide
/-- SN1, SN4. -/
theorem test_subn : let t := after 0x8017 (regs 0 3 1 5)
    let u := after 0x8017 (regs 0 1 1 0)
    t.reg 0 = 2#8 ∧ t.reg 15 = 1#8 ∧ u.reg 0 = 0xFF#8 ∧ u.reg 15 = 0#8 := by decide
/-- SL4, SL8. -/
theorem test_shl : let t := after 0x8008 (regs 0 0x81 1 0)
    t.reg 0 = 2#8 ∧ t.reg 15 = 1#8 ∧ (after 0x8F08 (regs 15 0x7F 0 0)).reg 15 = 0#8 := by decide
/-- U2. -/
theorem test_unimplemented_step : (after 0x00E0 State.reset).status = .faulted (.unimplementedInstruction 0x00E0#16) ∧
    (after 0x00E0 State.reset).pc = 0x202#16 := by decide
/-- SK14: a skip from 0xFFE passes the end of memory without a fault in that step. -/
theorem test_skip_past_memory : (after 0x3000 { State.reset with pc := 0xFFE#16 }).pc = 0x1002#16 := by decide

/-! ## The host port and the assembler -/

/-- H6. -/
theorem test_host_range : hostOp (.writeReg 16 0#8) State.reset = .refused .noSuchRegister ∧
    hostOp (.readMem 0x1000) State.reset = .refused .noSuchAddress := ⟨rfl, rfl⟩

/-- The lines of programs P5 and P7: "SHR V2" with y = 1 ignored, a raw word. -/
theorem test_assembleText :
    assembleText ['S', 'H', 'R', ' ', 'V', '2', ',', ' ', 'v', '1'] = some 0x8216#16 ∧
    assembleText ['L', 'D', ' ', 'V', 'A', ',', ' ', '0', 'x', '4', '2'] = some 0x6A42#16 ∧
    assembleText ['J', 'P', ' ', '5', '1', '2'] = some 0x1200#16 ∧
    assembleText ['D', 'W', ' ', '0', 'x', 'F', '0', '0', '0'] = some 0xF000#16 ∧
    assembleText ['L', 'D', ' ', 'V', '0', ',', ' ', '2', '5', '6'] = none := by decide

/-! ## Witnesses: for each statement with hypotheses, what meets them -/

/-- Reset with the pc and status given. -/
def at' (pc : Word) (st : Status) : State := { State.reset with pc := pc, status := st }

theorem witness_not_running : State.reset.status ≠ .running := by decide
theorem witness_running : (at' 0x200#16 .running).status = .running := rfl
theorem witness_faulted : (at' 0x202#16 (.faulted .stackUnderflow)).status = .faulted .stackUnderflow := rfl

/-- ConstructionIsZeroedAtExecBase, ResetIsTheOnlyWayOutOfFaulted, ResetForgetsHistory: Reset from a Faulted state. -/
theorem witness_reset : hostOp .reset (at' 0x202#16 (.faulted .stackUnderflow)) = .next (State.reset, .done) := rfl

/-- ResetIsTheOnlyWayOutOfFaulted: another operation is carried out in a Faulted state. -/
theorem witness_faulted_write : let s := at' 0x202#16 (.faulted .stackUnderflow)
    HostOp.writeReg 3 7#8 ≠ .reset ∧ hostOp (.writeReg 3 7#8) s = .next (s.setReg 3 7#8, .done) := ⟨by decide, rfl⟩

/-- FetchJoinsTwoBytesBigEndian, the last address that passes the check. -/
theorem witness_fetch_last : (at' 0xFFE#16 .running).pc.toNat + 1 < Config.memSize := by decide

/-- FailedFetchCheckFaultsAndChangesNothingElse: the first pc that fails the check, and the last that passes. -/
theorem witness_fetch_check : ((at' 0xFFF#16 .running).status = .running ∧
      Config.memSize ≤ (at' 0xFFF#16 .running).pc.toNat + 1) ∧
    ((at' 0xFFE#16 .running).status = .running ∧ (at' 0xFFE#16 .running).pc.toNat + 1 < Config.memSize) := by decide

/-- EveryOperationStartsFromAdvancedPc, HaltEndsTheRunNormally: HALT at the last address. -/
theorem witness_fetched_halt : (at' 0xFFE#16 .running).status = .running ∧
    fetchWord (at' 0xFFE#16 .running) = some 0x0000#16 := by decide

/-- A Running state with the word 6A42 (LD VA, 0x42) at its pc. -/
def runningLd : State := State.reset.withFetchWord 16 0x6A42

/-- StepRunsTheDecodedInstruction. -/
theorem witness_step_runs : runningLd.status = .running ∧ runningLd.pc.toNat + 1 < Config.memSize ∧
    decode (joinBytes (runningLd.readByte runningLd.pc.toNat) (runningLd.readByte (runningLd.pc.toNat + 1))) =
      .instr (.ldImm 10 0x42#8) := by decide

/-- UnimplementedWordFaultsWithThatWord. -/
theorem witness_unimplemented : let s := State.reset.withFetchWord 16 0xF000
    s.status = .running ∧ fetchWord s = some 0xF000#16 ∧ decode 0xF000#16 = .unimplemented 0xF000#16 := by decide

/-- RetPopsTheReturnAddress: one return address, and none. -/
theorem witness_ret : 0 < (oneCall 0x202#16).sp.val ∧ (∃ j : Fin Config.stackDepth, j.val + 1 = (oneCall 0x202#16).sp.val) ∧
    State.reset.sp.val = 0 := ⟨by decide, ⟨0, rfl⟩, rfl⟩

/-- CallPushesTheAdvancedPc: the lowest legal target, and the last free slot. -/
theorem witness_call : Config.execBase ≤ (0x200#12 : Addr).toNat ∧
    ({ State.reset with sp := 31 } : State).sp.val < Config.stackDepth := by decide

/-- CallFaultsOnReservedTargetThenOnFullStack: the highest reserved target; the lowest legal one with a full stack. -/
theorem witness_call_faults : (0x1FF#12 : Addr).toNat < Config.execBase ∧ (Config.execBase ≤ (0x200#12 : Addr).toNat ∧
    ({ State.reset with sp := 32 } : State).sp.val = Config.stackDepth) := by decide

/-- A Running state about to execute CALL 0x400, with RET at 0x400. -/
def aboutToCall : State :=
  { State.reset with mem := [(0x200, 0x24#8), (0x401, 0xEE#8)], status := .running }

/-- The state that step leaves. -/
def called : State :=
  match step aboutToCall with
  | .next t => t
  | _ => aboutToCall

/-- MatchingReturnGoesBackBehindItsCall: a call whose subroutine returns at once. -/
theorem witness_call_return : fetchWord aboutToCall = some 0x2400#16 ∧
    decode 0x2400#16 = .instr (.call 0x400#12) ∧ step aboutToCall = .next called ∧ called.status = .running ∧
    StaysAbove aboutToCall.sp.val called called ∧ called.sp.val = aboutToCall.sp.val + 1 ∧
    fetchWord called = some 0x00EE#16 ∧ decode 0x00EE#16 = .instr .ret :=
  ⟨by decide, by decide, rfl, by decide, .refl (by decide), by decide, by decide, by decide⟩

/-- SeImmediateSkipsWhenEqual, SneImmediateSkipsWhenDifferent, RegisterSkipsCompareTwoRegisters: equal and different. -/
theorem witness_skips : ((regs 0 5 1 5).reg 0).toNat = (5#8).toNat ∧ ((regs 0 6 1 5).reg 0).toNat ≠ (5#8).toNat ∧
    ((regs 0 5 1 5).reg 0).toNat = ((regs 0 5 1 5).reg 1).toNat ∧
    ((regs 0 6 1 5).reg 0).toNat ≠ ((regs 0 6 1 5).reg 1).toNat := by decide

/-- The result clauses of the flag-writing instructions and of LD: x is not VF, and a third register. -/
theorem witness_registers : (14 : RegIdx) ≠ Config.flagReg ∧ (0 : RegIdx) ≠ 14 ∧ (0 : RegIdx) ≠ Config.flagReg := by
  decide

/-- AluArithmeticLaws: a state whose registers hold the inputs, at the carry boundary. -/
theorem witness_alu : (regs 0 0xFF 1 0x01).reg 0 = 0xFF#8 ∧ (regs 0 0xFF 1 0x01).reg 1 = 0x01#8 := by decide

/-- InstructionsWriteOnlyNamedRegistersAndVf: a flag writer that answers a next state. -/
theorem witness_exec_next : exec (.addReg 0 1) (regs 0 0xFF 1 0x01) =
      .next ((regs 0 0xFF 1 0x01).writeResultAndFlag 0 0#8 1#8) ∧
    destination (.addReg 0 1) ≠ some 2 ∧ (2 : RegIdx) ≠ Config.flagReg ∧ flagWriter (.addReg 0 1) = true :=
  ⟨rfl, by decide, by decide, rfl⟩

/-- OnlyCallRetAndResetMoveTheStackPointer: the CALL above moves sp. -/
theorem witness_sp_moves : step aboutToCall = .next called ∧ called.sp ≠ aboutToCall.sp := ⟨rfl, by decide⟩

/-- OnlyCallRetAndResetMoveTheStackPointer, HostCannotWritePcSpOrSlots, EveryHostOperationKeepsTheInvariant. -/
theorem witness_host_op : hostOp .run State.reset = .next (at' 0x200#16 .running, .done) ∧ HostOp.run ≠ .reset :=
  ⟨rfl, by decide⟩

/-- OnlyCallWritesASlot: an instruction that is no CALL, and a slot that is not at sp. -/
theorem witness_no_call : exec .halt State.reset = .next (at' 0x200#16 .halted) ∧ (∀ nnn, Instr.halt ≠ .call nnn) ∧
    ∃ j : Fin Config.stackDepth, j.val ≠ State.reset.sp.val := ⟨rfl, by simp, ⟨1, by decide⟩⟩

/-- NoStepWritesMemory, StepReadsNoMemoryButTheFetchedWord: a skip over a word that other memory contents change. -/
theorem witness_unfetched : let s := State.reset.withFetchWord 16 0x3000
    step s = .next (s.setPc 0x204#16) ∧
    fetchWord { s with mem := s.mem.write 0x202 0xFF#8 } = fetchWord s := ⟨rfl, by decide⟩

/-- RunningMachineAlwaysStepsAndNoOtherDoes, EachFaultHasExactlyItsCause, HostMovesOnlyWhenTheStatusAllows. -/
theorem witness_statuses : (at' 0x200#16 .running).status = .running ∧ State.reset.status = .idle ∧
    (at' 0x202#16 .halted).status = .halted ∧ (at' 0xFFF#16 (.faulted .stackOverflow)).status = .faulted .stackOverflow :=
  ⟨rfl, rfl, rfl, rfl⟩

/-- EachFaultHasExactlyItsCause: each of the five faults, at a boundary. -/
theorem witness_five_faults :
    FaultsNext (at' 0xFFF#16 .running) (.outOfBoundsFetch 0xFFF#16) ∧
    FaultsNext (State.reset.withFetchWord 16 0xA000) (.unimplementedInstruction 0xA000#16) ∧
    FaultsNext (State.reset.withFetchWord 16 0x21FF) (.reservedMemoryCall 0x1FF#16) ∧
    FaultsNext (({ State.reset with sp := 32 } : State).withFetchWord 16 0x2200) .stackOverflow ∧
    FaultsNext (State.reset.withFetchWord 16 0x00EE) .stackUnderflow :=
  ⟨⟨_, rfl, rfl⟩, ⟨_, rfl, rfl⟩, ⟨_, rfl, rfl⟩, ⟨_, rfl, rfl⟩, ⟨_, rfl, rfl⟩⟩

/-- FaultsArePrecise: a fetch fault and a fault at dispatch. -/
theorem witness_fault_next :
    step (at' 0xFFF#16 .running) = .next (at' 0xFFF#16 (.faulted (.outOfBoundsFetch 0xFFF#16))) ∧
    (after 0x00EE State.reset).status = .faulted .stackUnderflow := ⟨rfl, by decide⟩

/-- EveryStepKeepsTheInvariant, EveryHostOperationKeepsTheInvariant: a state with the invariant, and its step. -/
theorem witness_invariant : aboutToCall.Inv ∧ step aboutToCall = .next called :=
  ⟨⟨by decide, by decide, fun _ h => absurd h (Nat.not_lt_zero _)⟩, rfl⟩

/-- EvenTargetsKeepThePcEven: the CALL above has an even target. -/
theorem witness_even : EvenAddresses aboutToCall ∧ step aboutToCall = .next called ∧
    (∀ w nnn, fetchWord aboutToCall = some w →
      decode w = .instr (.jp nnn) ∨ decode w = .instr (.call nnn) → nnn.toNat % 2 = 0) := by
  refine ⟨⟨by decide, fun _ h => absurd h (Nat.not_lt_zero _)⟩, rfl, fun w nnn hw hd => ?_⟩
  have e : w = 0x2400#16 := Option.some.inj (hw.symm.trans (by decide))
  have d : decode 0x2400#16 = .instr (.call 0x400#12) := by decide
  subst e
  rcases hd with hd | hd <;> rw [d] at hd <;> cases hd
  decide

/-- CanonicalMemoriesReadingAlikeAreEqual. -/
theorem witness_canonical : Memory.wf [(0x200, 0x24#8), (0x401, 0xEE#8)] ∧
    ∀ a, Memory.read [(0x200, 0x24#8), (0x401, 0xEE#8)] a = Memory.read [(0x200, 0x24#8), (0x401, 0xEE#8)] a :=
  ⟨by decide, fun _ => rfl⟩

/-- EncodingADecodedWordGivesItBack: a word of SHR with a y that is not 0. -/
theorem witness_decoded : decode 0x8356#16 = .instr (.shr 3) := by decide

/-- HostReadsBackWhatItWrites: the last and the first index and address on each side. -/
theorem witness_host_bounds : State.reset.status ≠ .running ∧ 15 < 16 ∧ 16 ≤ 16 ∧ 4095 < Config.memSize ∧
    Config.memSize ≤ 4096 := by decide

/-- RunOutcomeAgreesWithTheStatusItLeaves: each way a run of one step ends, and one that runs out of fuel; the refusals. -/
theorem witness_run : runFor 1 State.reset = .success (at' 0x202#16 .halted) ∧
    runFor 1 (at' 0xFFF#16 .idle) =
      .failure (.outOfBoundsFetch 0xFFF#16) (at' 0xFFF#16 (.faulted (.outOfBoundsFetch 0xFFF#16))) ∧
    runFor 0 State.reset = .outOfFuel (at' 0x200#16 .running) ∧
    StepsTo 1 (at' 0x200#16 .running) (at' 0x202#16 .halted) ∧
    runFor 1 (at' 0x200#16 .running) = .refused .hostWhileRunning ∧
    runFor 1 (at' 0x202#16 (.faulted .stackUnderflow)) = .refused .runAfterFault :=
  ⟨rfl, rfl, rfl, .next rfl (.refl _), rfl, rfl⟩

/-- MoreFuelDoesNotChangeTheOutcome: from reset, memory zero, one step of fuel ends the run. -/
theorem witness_fuel : 1 ≤ 2 ∧ ∀ t, runFor 1 State.reset ≠ .outOfFuel t := by
  refine ⟨by decide, fun t h => ?_⟩
  have e : runFor 1 State.reset = .success (at' 0x202#16 .halted) := rfl
  rw [e] at h
  cases h

/-- AssembledLinesDecodeToTheirInstructions: a line with an ignored y, and the largest raw word. -/
theorem witness_assembled : assemble ⟨.shr, [.reg 3, .reg 5]⟩ = some 0x8356#16 ∧ Mnemonic.shr ≠ .dw ∧
    assemble ⟨.dw, [.num 65535]⟩ = some 0xFFFF#16 := by decide

/-- PlacedWordsAreFetched: two words fit. -/
theorem witness_placed : Config.execBase + 2 * [0x8014#16, 0x0000#16].length ≤ Config.memSize ∧
    0 < [0x8014#16, 0x0000#16].length := by decide

/-- Parameters other than the defaults that meet the constraints: a smaller memory, an earlier base, one stack slot. -/
def small : Config.Params :=
  { memSize := 0x300, execBase := 0x100, stackDepth := 1, strictRegSkipNibble := false, shlSubop := 0xE#4 }

/-- A Running machine with those parameters and a word at its base. -/
def smallAt (w : Word) : State small :=
  { State.resetFor small with
    mem := (Memory.write [] 0x100 (highByte w)).write 0x101 (lowByte w)
    status := .running }

/-- ParametersSetTheirThresholds: the constraints hold, also with a CALL to the base, and the status is Running. -/
theorem witness_parameters : small.sizesLegal ∧ (smallAt 0x2100#16).status = .running ∧
    fetchWord (smallAt 0x2100#16) = some 0x2100#16 ∧ decodeFor small 0x2100#16 = .instr (.call 0x100#12) ∧
    (smallAt 0x2100#16).sp.val < small.stackDepth := by decide

/-- ParametersSetTheirThresholds: each fault at its boundary. -/
theorem witness_parameter_faults :
    stepFor ({ smallAt 0#16 with pc := 0x2FF#16 } : State small) =
      .next { smallAt 0#16 with pc := 0x2FF#16, status := .faulted (.outOfBoundsFetch 0x2FF#16) } ∧
    stepFor (smallAt 0x20FF#16) = .next { smallAt 0x20FF#16 with
      pc := 0x102#16, status := .faulted (.reservedMemoryCall 0x0FF#16) } ∧
    stepFor ({ smallAt 0x2100#16 with sp := 1 } : State small) = .next { smallAt 0x2100#16 with
      pc := 0x102#16, sp := 1, status := .faulted .stackOverflow } := ⟨rfl, rfl, rfl⟩

/-- ParametersSetTheirThresholds: the last pc that passes the fetch check; RET with an empty stack and with one entry. -/
theorem witness_parameter_clauses : (0x2FE#16 : Word).toNat + 1 < small.memSize ∧
    decodeFor small 0x00EE#16 = .instr .ret ∧ fetchWord (smallAt 0x00EE#16) = some 0x00EE#16 ∧
    (smallAt 0x00EE#16).sp.val = 0 ∧ ({ smallAt 0x00EE#16 with sp := 1 } : State small).sp.val ≠ 0 := by decide

/-- The behaviour parameters: 5121 is a skip and 812E a shift of this machine (section 2.2 of the vectors for the first). -/
theorem test_parameters_decode : decodeFor small 0x5121#16 = .instr (.seReg 1 2) ∧
    decodeFor small 0x812E#16 = .instr (.shl 1) ∧ decodeFor small 0x8128#16 = .unimplemented 0x8128#16 := by decide

/-- EveryStepKeepsTheInvariantForAllParameters: the machine about to call meets it. -/
theorem witness_small_invariant : (smallAt 0x2100#16).Inv ∧ ∃ t, stepFor (smallAt 0x2100#16) = .next t :=
  ⟨⟨by decide, by decide, fun _ h => absurd h (Nat.not_lt_zero _)⟩, ⟨_, rfl⟩⟩

/-- AStepAboveAReturnAddressKeepsIt: a skip with one return address on the stack. -/
theorem witness_kept_address : let s := (oneCall 0x202#16).withFetchWord 16 0x3000
    step s = .next (s.setPc 0x204#16) ∧ ∃ j : Fin Config.stackDepth, j.val < s.sp.val ∧
      j.val < (s.setPc 0x204#16).sp.val := ⟨rfl, ⟨0, by decide⟩⟩

end Sys2Proof.Tests
end

section
/-! SUPPORT. What CALL, RET and one step do on the machine with any parameters, branch by branch. -/

namespace Sys2Proof.Machine

variable {cfg : Config.Params}

/-! ## CALL (41_control_flow.md R93) -/

theorem execCall_of_reserved {nnn : Addr} {s : State cfg} (h : nnn.toNat < cfg.execBase) :
    execCall nnn s = raiseFault (.reservedMemoryCall (targetOperand nnn)) s := by
  simp only [execCall, targetOperand_toNat, if_pos h]

theorem execCall_of_full {nnn : Addr} {s : State cfg} (h : cfg.execBase ≤ nnn.toNat)
    (hsp : s.sp.val = cfg.stackDepth) : execCall nnn s = raiseFault .stackOverflow s := by
  simp only [execCall, targetOperand_toNat, if_neg h.not_gt, push_eq_none.mpr hsp]

theorem execCall_of_free_slot {nnn : Addr} {s : State cfg} (h : cfg.execBase ≤ nnn.toNat)
    (hsp : s.sp.val < cfg.stackDepth) :
    ∃ u, s.push s.pc = some u ∧ execCall nnn s = .next (u.setPc (targetOperand nnn)) := by
  obtain ⟨u, hu⟩ := Option.isSome_iff_exists.mp ((push_isSome s s.pc).mpr hsp)
  exact ⟨u, hu, by simp only [execCall, targetOperand_toNat, if_neg h.not_gt, hu]⟩

/-! ## RET (41_control_flow.md R91) -/

theorem execRet_of_empty {s : State cfg} (h : s.sp.val = 0) : execRet s = raiseFault .stackUnderflow s := by
  simp only [execRet, pop_eq_none.mpr h]

theorem execRet_of_entry {s : State cfg} (h : s.sp.val ≠ 0) :
    ∃ w u, s.pop = some (w, u) ∧ execRet s = .next (u.setPc w) := by
  obtain ⟨⟨w, u⟩, hu⟩ := Option.ne_none_iff_exists'.mp (mt pop_eq_none.mp h)
  exact ⟨w, u, hu, by simp only [execRet, hu]⟩

/-! ## The step of a Running machine (40_cycle.md R85) -/

/-- Where `MEM_SIZE` meets its constraint, the pre-advance of a pc that passes the fetch check does not wrap. -/
theorem advance_pc_toNat {s : State cfg} (hcfg : cfg.sizesLegal) (h : s.pc.toNat + 1 < cfg.memSize) :
    s.advance.pc.toNat = s.pc.toNat + 2 := by
  obtain ⟨-, hmem, -⟩ := hcfg
  rw [advance_pc, BitVec.toNat_add, BitVec.toNat_ofNat]
  omega

theorem stepFor_of_failed_check {s : State cfg} (hs : s.status = .running) (h : cfg.memSize ≤ s.pc.toNat + 1) :
    stepFor s = .next { s with status := .faulted (.outOfBoundsFetch s.pc) } := by
  rw [stepFor, cycleWith_running _ hs, runningStepWith, fetchWord_eq_none.mpr h, raiseFault]

theorem stepFor_of_fetched {s : State cfg} {w : Word} (hs : s.status = .running) (hw : fetchWord s = some w) :
    stepFor s = executeWith execFor (decodeFor cfg w) s.advance := by
  rw [stepFor, cycleWith_running _ hs, runningStepWith, hw]

/-- An instruction leaves the status, halts, or raises a fault other than that of the fetch. -/
theorem execFor_status (i : Instr) (s : State cfg) : ∃ t, execFor i s = .next t ∧
    (t.status = s.status ∨ t.status = .halted ∨ ∃ f, t.status = .faulted f ∧ ∀ p, f ≠ .outOfBoundsFetch p) := by
  obtain ⟨-, h⟩ | ⟨f, h, hf⟩ | ⟨p, h, -⟩ | ⟨r, h, -⟩ | ⟨nnn, u, -, -, hu, h⟩ | ⟨w, u, -, hu, h⟩ :=
    execFor_cases i s
  · exact ⟨_, h, .inr (.inl rfl)⟩
  · refine ⟨_, h, .inr (.inr ⟨f, rfl, ?_⟩)⟩
    obtain ⟨_, -, -, rfl⟩ | ⟨_, -, -, -, rfl⟩ | ⟨-, -, rfl⟩ := hf <;> exact nofun
  · exact ⟨_, h, .inl rfl⟩
  · exact ⟨_, h, .inl rfl⟩
  · obtain ⟨-, -, -, -, -, hst, -⟩ := push_some hu
    exact ⟨_, h, .inl hst⟩
  · obtain ⟨-, -, -, -, -, -, -, hst⟩ := pop_some hu
    exact ⟨_, h, .inl hst⟩

/-- Executing a decoded operation of a Running machine answers a state without a fetch fault: only the fetch unit
raises that one (60_exceptions.md R142). -/
theorem executeWith_no_fetch_fault (op : Op) {s : State cfg} (hs : s.status = .running) :
    ∃ t, executeWith execFor op s = .next t ∧ ∀ p, t.status ≠ .faulted (.outOfBoundsFetch p) := by
  cases op with
  | unimplemented w => exact ⟨_, rfl, nofun⟩
  | instr i =>
    obtain ⟨t, ht, h⟩ := execFor_status i s
    refine ⟨t, ht, fun p hp => ?_⟩
    obtain h | h | ⟨f, h, hf⟩ := h
    · simp [h, hs] at hp
    · simp [h] at hp
    · exact hf p (by simpa [h] using hp)

end Sys2Proof.Machine
end

section
/-! The obligations about the parameters (spec 00_scope.md R9, R10). -/

namespace Sys2Proof.Machine

variable {cfg : Config.Params}

/-- A legal `EXEC_BASE` fits in the pc. -/
theorem resetFor_pc_toNat (hcfg : cfg.sizesLegal) : (State.resetFor cfg).pc.toNat = cfg.execBase := by
  obtain ⟨hbase, hmem, -⟩ := hcfg
  rw [resetFor_pc, BitVec.toNat_ofNat]
  omega

/-- What `EXEC_BASE` and `STACK_DEPTH` decide of a CALL that answers `t`: which fault it raises, or, with neither,
where it goes and what it pushes (41_control_flow.md R93). -/
theorem execCall_thresholds {nnn : Addr} {s t : State cfg} (h : execCall nnn s = .next t) :
    (nnn.toNat < cfg.execBase → t.status = .faulted (.reservedMemoryCall (nnn.setWidth 16))) ∧
    (cfg.execBase ≤ nnn.toNat → s.sp.val = cfg.stackDepth → t.status = .faulted .stackOverflow) ∧
    (cfg.execBase ≤ nnn.toNat → s.sp.val < cfg.stackDepth → t.status = s.status ∧
      t.pc.toNat = nnn.toNat ∧ t.sp.val = s.sp.val + 1 ∧
      ∀ j : Fin cfg.stackDepth, j.val = s.sp.val → t.slot j = s.pc) := by
  refine ⟨fun hlow => ?_, fun hbase hfull => ?_, fun hbase hfree => ?_⟩
  · obtain rfl := Host.Outcome.next.inj ((execCall_of_reserved hlow).symm.trans h)
    rfl
  · obtain rfl := Host.Outcome.next.inj ((execCall_of_full hbase hfull).symm.trans h)
    rfl
  · obtain ⟨u, hu, hcall⟩ := execCall_of_free_slot hbase hfree
    obtain rfl := Host.Outcome.next.inj (hcall.symm.trans h)
    obtain ⟨-, hsp, -, -, -, hst, hslot⟩ := push_some hu
    exact ⟨hst, targetOperand_toNat nnn, hsp, fun j hj => (hslot j).trans (if_pos hj)⟩

/-- A RET of a Running machine underflows exactly with an empty stack (41_control_flow.md R91). -/
theorem execRet_underflows_iff {s t : State cfg} (hs : s.status = .running) (h : execRet s = .next t) :
    t.status = .faulted .stackUnderflow ↔ s.sp.val = 0 := by
  by_cases hsp : s.sp.val = 0
  · obtain rfl := Host.Outcome.next.inj ((execRet_of_empty hsp).symm.trans h)
    exact iff_of_true rfl hsp
  · obtain ⟨w, u, hu, hret⟩ := execRet_of_entry hsp
    obtain rfl := Host.Outcome.next.inj (hret.symm.trans h)
    obtain ⟨-, -, -, -, -, -, -, hst⟩ := pop_some hu
    exact iff_of_false (by simp [hst, hs]) hsp

/-- Settles O57: the fetch check splits the step; past it, CALL and RET are settled by their own thresholds. -/
theorem parametersSetTheirThresholds : Obligations.ParametersSetTheirThresholds := by
  intro cfg hcfg
  refine ⟨⟨resetFor_pc_toNat hcfg, rfl⟩, fun s hs => ⟨stepFor_of_failed_check hs, fun hpc => ?_⟩⟩
  have hw := fetchWord_eq_some.mpr ⟨hpc, rfl⟩
  obtain ⟨t, ht, hfetch⟩ := executeWith_no_fetch_fault (decodeFor cfg _) (s := s.advance) hs
  refine ⟨_, t, hw, (stepFor_of_fetched hs hw).trans ht, hfetch, fun nnn hd => ?_, fun hd => ?_⟩
  · rw [hd] at ht
    obtain ⟨hreserved, hfull, hfree⟩ := execCall_thresholds ht
    refine ⟨hreserved, hfull, fun hb hsp => ?_⟩
    obtain ⟨hst, htpc, htsp, hslot⟩ := hfree hb hsp
    exact ⟨hst.trans hs, htpc, htsp, fun j hj => (hslot j hj).symm ▸ advance_pc_toNat hcfg hpc⟩
  · rw [hd] at ht
    exact execRet_underflows_iff (s := s.advance) hs ht

/-- Settles O56: the two dispatches agree instruction by instruction, and so the two steps. -/
theorem theMachineIsTheOneWithTheDefaultParameters : Obligations.TheMachineIsTheOneWithTheDefaultParameters :=
  ⟨rfl, defaults_sizesLegal, resetFor_defaults.symm, exec_eq_execFor, step_eq_stepFor⟩

end Sys2Proof.Machine
end

section
/-! SUPPORT. What one instruction does to the call stack, the pc, memory and the registers, and what a host operation
leaves unchanged, each said once (spec 10_state.md). -/

namespace Sys2Proof.Machine

variable {cfg : Config.Params} {i : Instr} {s t : State cfg}

/-! ## The call stack (R26 to R28) -/

theorem slot_eq_of_stack_eq (h : t.stack = s.stack) (j : Fin cfg.stackDepth) : t.slot j = s.slot j := by
  simp only [State.slot, h]

/-- Everything an instruction can do to the stack: nothing, which for CALL and RET means a fault; or a CALL pushes the pc
it started from; or a RET goes to the return address below sp and leaves every slot. -/
theorem execFor_stack_cases (h : execFor i s = .next t) :
    (t.sp = s.sp ∧ t.stack = s.stack ∧ (((∀ nnn, i ≠ .call nnn) ∧ i ≠ .ret) ∨ ∃ f, t.status = .faulted f)) ∨
    (∃ nnn, i = .call nnn ∧ t.sp.val = s.sp.val + 1 ∧
      ∀ j, t.slot j = if j.val = s.sp.val then s.pc else s.slot j) ∨
    (i = .ret ∧ t.sp.val + 1 = s.sp.val ∧ t.stack = s.stack ∧
      ∀ j : Fin cfg.stackDepth, j.val + 1 = s.sp.val → t.pc = s.slot j) := by
  obtain ⟨hi, hx⟩ | ⟨f, hx, -⟩ | ⟨p, hx, hi⟩ | ⟨r, hx, -, hcall, -, hret⟩ | ⟨nnn, u, hi, -, hu, hx⟩ |
    ⟨w, u, hi, hu, hx⟩ := execFor_cases i s <;> obtain rfl := Host.Outcome.next.inj (hx.symm.trans h)
  · exact .inl ⟨rfl, rfl, .inl (by simp [hi])⟩
  · exact .inl ⟨rfl, rfl, .inr ⟨f, rfl⟩⟩
  · refine .inl ⟨rfl, rfl, .inl ?_⟩
    obtain ⟨_, rfl, -⟩ | ⟨-, ⟨_, _, rfl⟩ | ⟨_, _, rfl⟩ | ⟨_, _, rfl⟩ | ⟨_, _, rfl⟩⟩ := hi <;> simp
  · exact .inl ⟨rfl, rfl, .inl ⟨hcall, hret⟩⟩
  · obtain ⟨-, hsp, -, -, -, -, hslot⟩ := push_some hu
    exact .inr (.inl ⟨nnn, hi, hsp, hslot⟩)
  · obtain ⟨-, hsp, hslot, -, -, hstack, -, -⟩ := pop_some hu
    exact .inr (.inr ⟨hi, hsp, hstack, fun j hj => (hslot j hj).symm⟩)

/-- A return address still to be popped after an instruction is the pc it started from or was one before. -/
theorem execFor_returns (h : execFor i s = .next t) (j : Fin cfg.stackDepth) (hj : j.val < t.sp.val) :
    t.slot j = s.pc ∨ (j.val < s.sp.val ∧ t.slot j = s.slot j) := by
  obtain ⟨hsp, hstack, -⟩ | ⟨-, -, hsp, hslot⟩ | ⟨-, hsp, hstack, -⟩ := execFor_stack_cases h
  · exact .inr ⟨hsp ▸ hj, slot_eq_of_stack_eq hstack j⟩
  · rw [hslot j]
    split
    next => exact .inl rfl
    next hne => exact .inr ⟨by omega, rfl⟩
  · exact .inr ⟨by omega, slot_eq_of_stack_eq hstack j⟩

/-! ## The pc and memory (R23, R29) -/

/-- Where an instruction can leave the pc: where it was, one instruction on, at the target of a JP or CALL, or at a
pending return address. -/
theorem execFor_pc_cases (h : execFor i s = .next t) :
    t.pc = s.pc ∨ t.pc = s.pc + 2#16 ∨ (∃ nnn, (i = .jp nnn ∨ i = .call nnn) ∧ t.pc = targetOperand nnn) ∨
    ∃ j : Fin cfg.stackDepth, j.val < s.sp.val ∧ t.pc = s.slot j := by
  obtain ⟨-, hx⟩ | ⟨f, hx, -⟩ | ⟨p, hx, hp⟩ | ⟨r, hx, -⟩ | ⟨nnn, u, hi, -, -, hx⟩ | ⟨w, u, -, hu, hx⟩ :=
    execFor_cases i s <;> obtain rfl := Host.Outcome.next.inj (hx.symm.trans h)
  · exact .inl rfl
  · exact .inl rfl
  · obtain ⟨nnn, hi, hp⟩ | ⟨hp | hp, -⟩ := hp
    · exact .inr (.inr (.inl ⟨nnn, .inl hi, hp⟩))
    · exact .inl hp
    · exact .inr (.inl hp)
  · exact .inl rfl
  · exact .inr (.inr (.inl ⟨nnn, .inr hi, rfl⟩))
  · obtain ⟨hpos, -, hslot, -⟩ := pop_some hu
    have hlt := s.sp.isLt
    exact .inr (.inr (.inr ⟨⟨s.sp.val - 1, by omega⟩, Nat.sub_lt hpos one_pos,
      (hslot _ (Nat.sub_add_cancel hpos)).symm⟩))

theorem execFor_mem (h : execFor i s = .next t) : t.mem = s.mem := by
  obtain ⟨-, hx⟩ | ⟨f, hx, -⟩ | ⟨p, hx, -⟩ | ⟨r, hx, -⟩ | ⟨nnn, u, -, -, hu, hx⟩ | ⟨w, u, -, hu, hx⟩ :=
    execFor_cases i s <;> obtain rfl := Host.Outcome.next.inj (hx.symm.trans h)
  · rfl
  · rfl
  · rfl
  · rfl
  · obtain ⟨-, -, -, -, hmem, -⟩ := push_some hu
    exact hmem
  · obtain ⟨-, -, -, -, -, -, hmem, -⟩ := pop_some hu
    exact hmem

/-! ## The registers (R21, R22) -/

theorem and_one_zero_or_one (a : Byte) : a &&& 0x01#8 = 0#8 ∨ a &&& 0x01#8 = 1#8 := by
  have h : (a &&& 0x01#8).toNat = a.toNat % 2 := by simp [Nat.and_one_is_mod]
  obtain h' | h' := Nat.mod_two_eq_zero_or_one a.toNat
  · exact .inl (BitVec.eq_of_toNat_eq (h.trans h'))
  · exact .inr (BitVec.eq_of_toNat_eq (h.trans h'))

theorem skipIf_regs {c : Bool} (h : skipIf c s = .next t) : t.regs = s.regs := by
  obtain rfl := Host.Outcome.next.inj h
  cases c <;> rfl

theorem execFor_regs_of_call_or_ret (h : execFor i s = .next t) (hi : (∃ nnn, i = .call nnn) ∨ i = .ret) :
    t.regs = s.regs := by
  obtain ⟨-, hx⟩ | ⟨f, hx, -⟩ | ⟨p, hx, -⟩ | ⟨r, hx, -, hcall, -, hret⟩ | ⟨nnn, u, -, -, hu, hx⟩ | ⟨w, u, -, hu, hx⟩ :=
    execFor_cases i s <;> obtain rfl := Host.Outcome.next.inj (hx.symm.trans h)
  · rfl
  · rfl
  · rfl
  · obtain ⟨nnn, hi⟩ | hi := hi
    · exact absurd hi (hcall nnn)
    · exact absurd hi hret
  · obtain ⟨-, -, hregs, -⟩ := push_some hu
    exact hregs
  · obtain ⟨-, -, -, hregs, -⟩ := pop_some hu
    exact hregs

/-- Everything an instruction can do to the registers: nothing; a write to its destination; or, for the flag writers, a
write to its destination and then 0 or 1 to VF. -/
theorem execFor_regs_cases (h : execFor i s = .next t) :
    (flagWriter i = false ∧ t.regs = s.regs) ∨
    (flagWriter i = false ∧ ∃ x v, destination i = some x ∧ t = s.setReg x v) ∨
    (flagWriter i = true ∧ ∃ x v f, destination i = some x ∧ (f = 0#8 ∨ f = 1#8) ∧
      t = s.writeResultAndFlag x v f) := by
  cases i with
  | halt | jp => exact .inl ⟨rfl, Host.Outcome.next.inj h ▸ rfl⟩
  | call nnn => exact .inl ⟨rfl, execFor_regs_of_call_or_ret h (.inl ⟨nnn, rfl⟩)⟩
  | ret => exact .inl ⟨rfl, execFor_regs_of_call_or_ret h (.inr rfl)⟩
  | seImm | sneImm | seReg | sneReg => exact .inl ⟨rfl, skipIf_regs h⟩
  | ldImm | ldReg | orReg | andReg | xorReg =>
    exact .inr (.inl ⟨rfl, _, _, rfl, (Host.Outcome.next.inj h).symm⟩)
  | addImm | addReg | sub | subn =>
    exact .inr (.inr ⟨rfl, _, _, _, rfl, flagByte_zero_or_one _, (Host.Outcome.next.inj h).symm⟩)
  | shr | shl =>
    exact .inr (.inr ⟨rfl, _, _, _, rfl, and_one_zero_or_one _, (Host.Outcome.next.inj h).symm⟩)

/-! ## The host port (R33, R34) -/

theorem whenNotRunning_of_running (hs : s.status = .running) (r : HostResult cfg) :
    whenNotRunning s r = .refused .hostWhileRunning := by
  simp only [whenNotRunning, hs]

theorem whenNotRunning_of_not_running (hs : s.status ≠ .running) (r : HostResult cfg) : whenNotRunning s r = r := by
  unfold whenNotRunning
  split
  next h => exact absurd h hs
  next => rfl

/-- No host operation but Reset() writes the pc, sp or the stack. -/
theorem hostOp_keeps_pc_sp_stack {op : HostOp} {r : HostReply} (h : hostOp op s = .next (t, r)) (hop : op ≠ .reset) :
    t.pc = s.pc ∧ t.sp = s.sp ∧ t.stack = s.stack := by
  obtain ⟨_, _, -, -, rfl⟩ | ⟨_, _, -, -, -, rfl⟩ | ⟨hreset, -, -⟩ | ⟨-, -, rfl⟩ | ⟨rfl, -⟩ := hostOp_cases h
  · exact ⟨rfl, rfl, rfl⟩
  · exact ⟨rfl, rfl, rfl⟩
  · exact absurd hreset hop
  · exact ⟨rfl, rfl, rfl⟩
  · exact ⟨rfl, rfl, rfl⟩

end Sys2Proof.Machine
end

section
/-! The obligations about the invariant and the parity of the pc (spec 10_state.md R24, R25). -/

namespace Sys2Proof.Machine

variable {cfg : Config.Params} {i : Instr} {s t : State cfg}

/-! ## The invariant -/

theorem toNat_add_two_le (w : Word) : (w + 2#16).toNat ≤ w.toNat + 2 := by
  rw [BitVec.toNat_add]
  exact Nat.mod_le _ _

theorem resetFor_inv (hcfg : cfg.sizesLegal) : (State.resetFor cfg).Inv where
  memory := memory_wf_nil
  pc_le := by
    have ⟨hbase, _, _⟩ := hcfg
    rw [resetFor_pc_toNat hcfg]
    omega
  returns_le j hj := absurd hj (Nat.not_lt_zero _)

theorem inv_withStatus (hs : s.Inv) (st : Status) : State.Inv { s with status := st } :=
  ⟨hs.memory, hs.pc_le, hs.returns_le⟩

/-- Started from a pc that is at most `MEM_SIZE`, as every advanced pc is, an instruction keeps the invariant: a skip adds
2, a CALL pushes the pc, a RET goes to a return address, and an operand has 12 bits. -/
theorem execFor_keeps_inv (hs : s.Inv) (hpc : s.pc.toNat ≤ cfg.memSize) (h : execFor i s = .next t) : t.Inv where
  memory := execFor_mem h ▸ hs.memory
  pc_le := by
    obtain hp | hp | ⟨nnn, -, hp⟩ | ⟨j, hj, hp⟩ := execFor_pc_cases h <;> rw [hp]
    · exact hs.pc_le
    · have := toNat_add_two_le s.pc
      omega
    · have := nnn.isLt
      rw [targetOperand_toNat]
      omega
    · have := hs.returns_le j hj
      omega
  returns_le j hj := by
    obtain hslot | ⟨hj', hslot⟩ := execFor_returns h j hj <;> rw [hslot]
    · exact hpc
    · exact hs.returns_le j hj'

/-- The pre-advance of a pc that passed the fetch check gives at most `MEM_SIZE`. -/
theorem advance_pc_le (hpc : s.pc.toNat + 1 < cfg.memSize) : s.advance.pc.toNat ≤ cfg.memSize := by
  have := toNat_add_two_le s.pc
  rw [advance_pc]
  omega

theorem advance_inv (hs : s.Inv) (hpc : s.pc.toNat + 1 < cfg.memSize) : s.advance.Inv :=
  ⟨hs.memory, (advance_pc_le hpc).trans (by omega), hs.returns_le⟩

theorem stepFor_keeps_inv (hs : s.Inv) (h : stepFor s = .next t) : t.Inv := by
  obtain ⟨-, ⟨-, rfl⟩ | ⟨w, hw, -, rfl⟩ | ⟨w, i, hw, -, hx⟩⟩ := cycleWith_cases h
  · exact inv_withStatus hs _
  · obtain ⟨hpc, -⟩ := fetchWord_eq_some.mp hw
    exact inv_withStatus (advance_inv hs hpc) _
  · obtain ⟨hpc, -⟩ := fetchWord_eq_some.mp hw
    exact execFor_keeps_inv (advance_inv hs hpc) (advance_pc_le hpc) hx

theorem hostOp_keeps_inv {op : HostOp} {r : HostReply} (hcfg : cfg.sizesLegal) (hs : s.Inv)
    (h : hostOp op s = .next (t, r)) : t.Inv := by
  obtain ⟨_, _, -, -, rfl⟩ | ⟨a, v, -, -, ha, rfl⟩ | ⟨-, -, rfl⟩ | ⟨-, -, rfl⟩ | ⟨rfl, -⟩ := hostOp_cases h
  · exact ⟨hs.memory, hs.pc_le, hs.returns_le⟩
  · exact ⟨memory_write_wf v hs.memory ha, hs.pc_le, hs.returns_le⟩
  · exact resetFor_inv hcfg
  · exact inv_withStatus hs _
  · exact hs

/-- Settles O58: `resetFor_inv`, the bound on `MEM_SIZE`, and `stepFor_keeps_inv`. -/
theorem everyStepKeepsTheInvariantForAllParameters : Obligations.EveryStepKeepsTheInvariantForAllParameters := by
  intro cfg hcfg
  have ⟨_, _, hfits⟩ := hcfg
  exact ⟨resetFor_inv hcfg, by omega, fun _ _ => stepFor_keeps_inv⟩

/-- Settles O37: the step is `stepFor` with the default parameters. -/
theorem everyStepKeepsTheInvariant : Obligations.EveryStepKeepsTheInvariant :=
  fun s _ hs h => stepFor_keeps_inv hs ((step_eq_stepFor s).symm.trans h)

/-- Settles O38: only HostWriteMem touches memory, at an address that exists, and only Reset() the rest. -/
theorem everyHostOperationKeepsTheInvariant : Obligations.EveryHostOperationKeepsTheInvariant :=
  fun _ _ _ _ hs h => hostOp_keeps_inv defaults_sizesLegal hs h

/-- Settles O36: the default sizes are legal. -/
theorem resetMeetsTheInvariant : Obligations.ResetMeetsTheInvariant :=
  resetFor_inv defaults_sizesLegal

/-! ## The parity of the pc -/

theorem toNat_add_two_mod_two (w : Word) : (w + 2#16).toNat % 2 = w.toNat % 2 := by
  rw [BitVec.toNat_add, BitVec.toNat_ofNat]
  omega

theorem exec_keeps_even {s t : State} (hs : EvenAddresses s) (h : exec i s = .next t)
    (htarget : ∀ nnn, i = .jp nnn ∨ i = .call nnn → nnn.toNat % 2 = 0) : EvenAddresses t := by
  rw [exec_eq_execFor] at h
  obtain ⟨hpc, hreturns⟩ := hs
  refine ⟨?_, fun j hj => ?_⟩
  · obtain hp | hp | ⟨nnn, hi, hp⟩ | ⟨j, hj, hp⟩ := execFor_pc_cases h <;> rw [hp]
    · exact hpc
    · exact (toNat_add_two_mod_two s.pc).trans hpc
    · exact (targetOperand_toNat nnn).symm ▸ htarget nnn hi
    · exact hreturns j hj
  · obtain hslot | ⟨hj', hslot⟩ := execFor_returns h j hj <;> rw [hslot]
    · exact hpc
    · exact hreturns j hj'

theorem advance_even {s : State} (hs : EvenAddresses s) : EvenAddresses s.advance :=
  have ⟨hpc, hreturns⟩ := hs
  ⟨(toNat_add_two_mod_two s.pc).trans hpc, hreturns⟩

/-- Settles O39: the pre-advance keeps parity, and the instruction by `exec_keeps_even`. -/
theorem evenTargetsKeepThePcEven : Obligations.EvenTargetsKeepThePcEven := by
  intro s t hs h htarget
  obtain ⟨-, ⟨-, rfl⟩ | ⟨w, -, -, rfl⟩ | ⟨w, i, hw, hd, hx⟩⟩ := step_cases h
  · exact hs
  · exact advance_even hs
  · refine exec_keeps_even (advance_even hs) hx fun nnn hi => htarget w nnn hw ?_
    rw [hd]
    exact hi.imp (congrArg Op.instr) (congrArg Op.instr)

end Sys2Proof.Machine
end

section
/-! The obligations about what writes the registers, the stack pointer and the stack (spec 10_state.md R21, R22, R26 to
R28). -/

namespace Sys2Proof.Machine

theorem execFor_sp_of_not_call_ret {cfg : Config.Params} {i : Instr} {s t : State cfg} (h : execFor i s = .next t)
    (hcall : ∀ nnn, i ≠ .call nnn) (hret : i ≠ .ret) : t.sp = s.sp := by
  obtain ⟨hsp, -, -⟩ | ⟨nnn, hi, -⟩ | ⟨hi, -⟩ := execFor_stack_cases h
  · exact hsp
  · exact absurd hi (hcall nnn)
  · exact absurd hi hret

/-- Settles O28: by the three ways an instruction can treat the registers. -/
theorem instructionsWriteOnlyNamedRegistersAndVf : Obligations.InstructionsWriteOnlyNamedRegistersAndVf := by
  intro i s t h
  rw [exec_eq_execFor] at h
  obtain ⟨hf, hregs⟩ | ⟨hf, x, v, hd, rfl⟩ | ⟨hf, x, v, f, hd, hbit, rfl⟩ := execFor_regs_cases h
  · exact ⟨fun r _ _ => by simp only [State.reg, hregs], by simp [hf]⟩
  · refine ⟨fun r hr _ => ?_, by simp [hf]⟩
    have hne : r ≠ x := fun e => hr (e ▸ hd)
    simp [hne]
  · refine ⟨fun r hr hvf => ?_, fun _ => by simpa using hbit⟩
    have hne : r ≠ x := fun e => hr (e ▸ hd)
    simp [hne, hvf hf]

theorem exec_call_sp {nnn : Addr} {s t : State} (h : exec (.call nnn) s = .next t) :
    (t.sp.val = s.sp.val + 1 ∧ ∀ j : Fin Config.stackDepth, j.val = s.sp.val → t.slot j = s.pc) ∨
    (t.sp = s.sp ∧ ∃ f, t.status = .faulted f) := by
  rw [exec_eq_execFor] at h
  obtain ⟨hsp, -, ⟨hno, -⟩ | hf⟩ | ⟨-, -, hsp, hslot⟩ | ⟨hi, -⟩ := execFor_stack_cases h
  · exact absurd rfl (hno nnn)
  · exact .inr ⟨hsp, hf⟩
  · exact .inl ⟨hsp, fun j hj => (hslot j).trans (if_pos hj)⟩
  · cases hi

theorem exec_ret_sp {s t : State} (h : exec .ret s = .next t) :
    (t.sp.val + 1 = s.sp.val ∧ ∀ j : Fin Config.stackDepth, j.val = t.sp.val → t.pc = s.slot j) ∨
    (t.sp = s.sp ∧ ∃ f, t.status = .faulted f) := by
  rw [exec_eq_execFor] at h
  obtain ⟨hsp, -, ⟨-, hno⟩ | hf⟩ | ⟨_, hi, -⟩ | ⟨-, hsp, -, hpc⟩ := execFor_stack_cases h
  · exact absurd rfl hno
  · exact .inr ⟨hsp, hf⟩
  · cases hi
  · exact .inl ⟨hsp, fun j hj => hpc j (by omega)⟩

/-- A step that moves sp fetched a CALL or a RET. -/
theorem step_moves_sp {s t : State} (h : step s = .next t) (hsp : t.sp ≠ s.sp) :
    ∃ w i, fetchWord s = some w ∧ decode w = .instr i ∧ ((∃ nnn, i = .call nnn) ∨ i = .ret) := by
  obtain ⟨-, ⟨-, rfl⟩ | ⟨w, -, -, rfl⟩ | ⟨w, i, hw, hd, hx⟩⟩ := step_cases h
  · exact absurd rfl hsp
  · exact absurd rfl hsp
  · refine ⟨w, i, hw, hd, ?_⟩
    by_contra hi
    obtain ⟨hcall, hret⟩ := not_or.mp hi
    rw [exec_eq_execFor] at hx
    exact hsp (execFor_sp_of_not_call_ret (s := s.advance) hx (not_exists.mp hcall) hret)

/-- Settles O29: the bound is in the type of sp; CALL, RET and the others by `execFor_stack_cases`. -/
theorem onlyCallRetAndResetMoveTheStackPointer : Obligations.OnlyCallRetAndResetMoveTheStackPointer := by
  refine ⟨fun s => Nat.le_of_lt_succ s.sp.isLt, rfl, fun i s t h => ⟨?_, ?_, ?_⟩, fun s t => step_moves_sp,
    fun op s t r h hop => ?_⟩
  · rintro nnn rfl
    exact exec_call_sp h
  · rintro rfl
    exact exec_ret_sp h
  · exact execFor_sp_of_not_call_ret ((exec_eq_execFor i s).symm.trans h)
  · obtain ⟨-, hsp, -⟩ := hostOp_keeps_pc_sp_stack h hop
    exact hsp

/-- Settles O30: of the three ways an instruction can treat the stack only a CALL's push changes a slot. -/
theorem onlyCallWritesASlot : Obligations.OnlyCallWritesASlot := by
  intro i s t h
  rw [exec_eq_execFor] at h
  obtain ⟨-, hstack, -⟩ | ⟨nnn, hi, -, hslot⟩ | ⟨-, -, hstack, -⟩ := execFor_stack_cases h
  · exact ⟨fun _ => slot_eq_of_stack_eq hstack, fun j _ => slot_eq_of_stack_eq hstack j⟩
  · exact ⟨fun hcall => absurd hi (hcall nnn), fun j hj => (hslot j).trans (if_neg hj)⟩
  · exact ⟨fun _ => slot_eq_of_stack_eq hstack, fun j _ => slot_eq_of_stack_eq hstack j⟩

end Sys2Proof.Machine
end

section
/-! The obligations about the host port (spec 10_state.md R33, R34). -/

namespace Sys2Proof.Machine

variable {cfg : Config.Params} {s : State cfg} {k : Nat}

/-! ## Reads and writes between runs -/

theorem hostOp_writeReg (hs : s.status ≠ .running) (v : Byte) (hk : k < 16) :
    hostOp (.writeReg k v) s = .next (s.setReg ⟨k, hk⟩ v, .done) :=
  (whenNotRunning_of_not_running hs _).trans (dif_pos hk)

theorem hostOp_readReg (hs : s.status ≠ .running) (hk : k < 16) :
    hostOp (.readReg k) s = .next (s, .byte (s.reg ⟨k, hk⟩)) :=
  (whenNotRunning_of_not_running hs _).trans (dif_pos hk)

theorem hostOp_writeReg_of_ge (hs : s.status ≠ .running) (v : Byte) (hk : 16 ≤ k) :
    hostOp (.writeReg k v) s = .refused .noSuchRegister :=
  (whenNotRunning_of_not_running hs _).trans (dif_neg hk.not_gt)

theorem hostOp_readReg_of_ge (hs : s.status ≠ .running) (hk : 16 ≤ k) :
    hostOp (.readReg k) s = .refused .noSuchRegister :=
  (whenNotRunning_of_not_running hs _).trans (dif_neg hk.not_gt)

theorem hostOp_writeMem (hs : s.status ≠ .running) (v : Byte) (hk : k < cfg.memSize) :
    hostOp (.writeMem k v) s = .next ({ s with mem := s.mem.write k v }, .done) := by
  refine (whenNotRunning_of_not_running hs _).trans ?_
  simp only [State.memWrite, if_pos hk]

theorem hostOp_readMem (hs : s.status ≠ .running) (hk : k < cfg.memSize) :
    hostOp (.readMem k) s = .next (s, .byte (s.readByte k)) := by
  refine (whenNotRunning_of_not_running hs _).trans ?_
  simp only [State.memRead, if_pos hk]

theorem hostOp_writeMem_of_ge (hs : s.status ≠ .running) (v : Byte) (hk : cfg.memSize ≤ k) :
    hostOp (.writeMem k v) s = .refused .noSuchAddress := by
  refine (whenNotRunning_of_not_running hs _).trans ?_
  simp only [State.memWrite, if_neg hk.not_gt]

theorem hostOp_readMem_of_ge (hs : s.status ≠ .running) (hk : cfg.memSize ≤ k) :
    hostOp (.readMem k) s = .refused .noSuchAddress := by
  refine (whenNotRunning_of_not_running hs _).trans ?_
  simp only [State.memRead, if_neg hk.not_gt]

/-- Settles O49: a read of the state just written gives the written byte, by `setReg_reg` and `memory_read_write`. -/
theorem hostReadsBackWhatItWrites : Obligations.HostReadsBackWhatItWrites := by
  intro s k v hs
  refine ⟨fun hk => ⟨_, hostOp_writeReg hs v hk, ?_, fun r hr => ?_, rfl, fun _ => rfl, rfl, fun _ => rfl, rfl⟩,
    fun hk => ⟨hostOp_writeReg_of_ge hs v hk, hostOp_readReg_of_ge hs hk⟩,
    fun hk => ⟨_, hostOp_writeMem hs v hk, ?_, fun a ha => ?_, rfl, rfl, rfl, rfl, rfl⟩,
    fun hk => ⟨hostOp_writeMem_of_ge hs v hk, hostOp_readMem_of_ge hs hk⟩⟩
  · rw [hostOp_readReg (s := s.setReg ⟨k, hk⟩ v) hs hk, setReg_reg, if_pos rfl]
  · rw [setReg_reg, if_neg fun e => hr (congrArg Fin.val e)]
  · rw [hostOp_readMem (s := { s with mem := s.mem.write k v }) hs hk, State.readByte, memory_read_write, if_pos rfl]
  · exact (memory_read_write s.mem k a v).trans (if_neg ha)

/-- Settles O50: the stack is kept, and so each slot. -/
theorem hostCannotWritePcSpOrSlots : Obligations.HostCannotWritePcSpOrSlots := by
  intro op s t r h hop
  obtain ⟨hpc, hsp, hstack⟩ := hostOp_keeps_pc_sp_stack h hop
  exact ⟨hpc, hsp, slot_eq_of_stack_eq hstack⟩

/-! ## When the host may move -/

theorem hostOp_of_running (hs : s.status = .running) (op : HostOp) (hop : op ≠ .readStatus) :
    hostOp op s = .refused .hostWhileRunning := by
  cases op with
  | readStatus => exact absurd rfl hop
  | run => simp only [hostOp, hostRun, hs]
  | writeReg | readReg | writeMem | readMem | readPc | readSp | reset => exact whenNotRunning_of_running hs _

theorem hostRun_of_idle_or_halted (hs : s.status = .idle ∨ s.status = .halted) :
    hostRun s = .next ({ s with status := .running }, .done) := by
  obtain hs | hs := hs <;> simp only [hostRun, hs]

theorem hostRun_of_faulted {f : Fault} (hs : s.status = .faulted f) : hostRun s = .refused .runAfterFault := by
  simp only [hostRun, hs]

/-- Settles O48: HostReadStatus alone is not guarded by the status, and Run() is a match on it. -/
theorem hostMovesOnlyWhenTheStatusAllows : Obligations.HostMovesOnlyWhenTheStatusAllows := by
  refine ⟨fun op s hs => ?_, fun s => hostRun_of_idle_or_halted, fun s f => hostRun_of_faulted⟩
  split
  next hop => rw [hop, hostOp, hostReadStatus, hs]
  next hop => exact hostOp_of_running hs op hop

/-- Settles O55: each observation answers its field with the state as it was, or is refused by the status. -/
theorem hostObservesStatusPcAndSp : Obligations.HostObservesStatusPcAndSp :=
  fun _ => ⟨rfl, fun hs => ⟨whenNotRunning_of_not_running hs _, whenNotRunning_of_not_running hs _⟩,
    fun hs => ⟨hostOp_of_running hs _ nofun, hostOp_of_running hs _ nofun⟩⟩

end Sys2Proof.Machine
end

section
/-! The obligations about memory (spec 20_memory.md R40, R41): no step writes it, and its canonical form is determined
by what it reads as. -/

namespace Sys2Proof.Machine

/-! ## No step writes memory (R41) -/

theorem stepFor_mem {cfg : Config.Params} {s t : State cfg} (h : stepFor s = .next t) : t.mem = s.mem := by
  obtain ⟨-, ⟨-, rfl⟩ | ⟨w, -, -, rfl⟩ | ⟨w, i, -, -, hx⟩⟩ := cycleWith_cases h
  · rfl
  · rfl
  · exact execFor_mem (s := s.advance) hx

/-- Settles O31: a read answers from the memory, which `stepFor_mem` keeps. -/
theorem noStepWritesMemory : Obligations.NoStepWritesMemory := by
  intro s t h
  have hmem : t.mem = s.mem := stepFor_mem ((step_eq_stepFor s).symm.trans h)
  exact ⟨hmem, fun a => congrArg (Memory.read · a) hmem⟩

/-! ## Canonical memories that read alike (log 17) -/

variable {m n : Memory} {size : Nat} {c : Host.Cell}

theorem memory_mem_of_read (hread : m.read c.1 = c.2) (hlisted : c.2 ≠ Memory.unlisted) : c ∈ m := by
  induction m with
  | nil => exact absurd hread.symm hlisted
  | cons d m ih =>
    rw [memory_read_cons] at hread
    split at hread
    next hd => exact Prod.ext hd hread ▸ List.mem_cons_self
    next => exact List.mem_cons_of_mem d (ih hread)

theorem memory_read_of_mem (hm : m.Pairwise (fun c d => c.1 < d.1)) (hc : c ∈ m) : m.read c.1 = c.2 := by
  induction m with
  | nil => exact absurd hc List.not_mem_nil
  | cons d m ih =>
    obtain ⟨hd, hm⟩ := List.pairwise_cons.mp hm
    rw [memory_read_cons]
    obtain rfl | hc := List.mem_cons.mp hc
    · exact if_pos rfl
    · exact (if_neg (hd c hc).ne).trans (ih hm hc)

/-- The cells of a memory in canonical form, told from its reads alone. -/
theorem memory_mem_iff_read (hm : m.wf size) : c ∈ m ↔ m.read c.1 = c.2 ∧ c.2 ≠ Memory.unlisted := by
  obtain ⟨hsorted, hcells⟩ := hm
  constructor
  · intro hc
    obtain ⟨-, hlisted⟩ := hcells c hc
    exact ⟨memory_read_of_mem hsorted hc, hlisted⟩
  · rintro ⟨hread, hlisted⟩
    exact memory_mem_of_read hread hlisted

/-- Sorted lists with the same elements are equal, and the reads determine the elements. -/
theorem memory_eq_of_read_eq (hm : m.wf size) (hn : n.wf size) (h : ∀ a, m.read a = n.read a) : m = n := by
  have ⟨hmsorted, _⟩ := hm
  have ⟨hnsorted, _⟩ := hn
  have : Std.Asymm fun c d : Host.Cell => c.1 < d.1 := ⟨fun _ _ => Nat.lt_asymm⟩
  exact hmsorted.eq_of_mem_iff hnsorted fun c => by rw [memory_mem_iff_read hm, memory_mem_iff_read hn, h]

/-- Settles O40: the case of MEM_SIZE. -/
theorem canonicalMemoriesReadingAlikeAreEqual : Obligations.CanonicalMemoriesReadingAlikeAreEqual :=
  fun _ _ => memory_eq_of_read_eq

end Sys2Proof.Machine
end

section
/-! SUPPORT. The words the encoder makes, taken apart into their fields again, and the masks of the dispatch table
(spec 30_encoding.md R61, R62, R66). -/

namespace Sys2Proof

variable (w : Word) (g n : BitVec 4) (x y : RegIdx) (kk : Byte) (nnn : Addr)

/-! ## The fields of a word that is put together -/

@[simp] theorem fieldX_wordXKk : fieldX (wordXKk g x kk) = x := by
  have := x.isLt; have := kk.isLt
  ext; rw [fieldX_val, wordXKk_toNat]; omega

@[simp] theorem fieldKk_wordXKk : fieldKk (wordXKk g x kk) = kk := by
  have := kk.isLt
  apply BitVec.eq_of_toNat_eq; rw [fieldKk_toNat, wordXKk_toNat]; omega

@[simp] theorem fieldX_wordXY : fieldX (wordXY g x y n) = x := by
  have := x.isLt; have := y.isLt; have := n.isLt
  ext; rw [fieldX_val, wordXY_toNat]; omega

@[simp] theorem fieldY_wordXY : fieldY (wordXY g x y n) = y := by
  have := y.isLt; have := n.isLt
  ext; rw [fieldY_val, wordXY_toNat]; omega

@[simp] theorem fieldNnn_wordNnn : fieldNnn (wordNnn g nnn) = nnn := by
  have := nnn.isLt
  apply BitVec.eq_of_toNat_eq; rw [fieldNnn_toNat, wordNnn_toNat]; omega

/-- A word is its four nibbles put together (R61). -/
theorem wordXY_fields : wordXY (fieldGroup w) (fieldX w) (fieldY w) (fieldSubop w) = w := by
  have := w.isLt
  apply BitVec.eq_of_toNat_eq
  rw [wordXY_toNat, fieldGroup_toNat, fieldX_val, fieldY_val, fieldSubop_toNat]; omega

/-! ## The masks -/

theorem and_nibbles (a b c d a' b' c' d' : BitVec 4) : (a ++ b ++ c ++ d) &&& (a' ++ b' ++ c' ++ d') =
    (a &&& a') ++ (b &&& b') ++ (c &&& c') ++ (d &&& d') := by
  simp only [BitVec.and_append]

theorem or_nibbles (a b c d a' b' c' d' : BitVec 4) : (a ++ b ++ c ++ d) ||| (a' ++ b' ++ c' ++ d') =
    (a ||| a') ++ (b ||| b') ++ (c ||| c') ++ (d ||| d') := by
  simp only [BitVec.or_append]

theorem wordXY_and_groupMask : wordXY g x y n &&& 0xF000#16 = wordXY g 0 0 0#4 := by
  refine (and_nibbles g _ _ n (.allOnes 4) 0#4 0#4 0#4).trans ?_
  simp only [BitVec.and_allOnes, BitVec.and_zero]
  rfl

theorem wordXY_and_groupSubopMask : wordXY g x y n &&& 0xF00F#16 = wordXY g 0 0 n := by
  refine (and_nibbles g _ _ n (.allOnes 4) 0#4 0#4 (.allOnes 4)).trans ?_
  simp only [BitVec.and_allOnes, BitVec.and_zero]
  rfl

/-- Mask FF0F drops y, the field that SHR and SHL ignore (R64). -/
theorem wordXY_and_notYMask : wordXY g x y n &&& 0xFF0F#16 = wordXY g x 0 n := by
  refine (and_nibbles g _ _ n (.allOnes 4) (.allOnes 4) 0#4 (.allOnes 4)).trans ?_
  simp only [BitVec.and_allOnes, BitVec.and_zero]
  rfl

/-- An ignored y is written over the 0 that the encoder puts there (R64, R71). -/
theorem wordXY_or_y : wordXY g x 0 n ||| wordXY 0#4 0 y 0#4 = wordXY g x y n := by
  refine (or_nibbles g _ 0#4 n 0#4 0#4 _ 0#4).trans ?_
  simp only [BitVec.or_zero, BitVec.zero_or]
  rfl

theorem and_groupMask_toNat : (w &&& 0xF000#16).toNat = w.toNat / 4096 * 4096 := by
  have := w.isLt
  rw [← wordXY_fields w, wordXY_and_groupMask, wordXY_toNat, wordXY_fields, fieldGroup_toNat]
  simp; omega

theorem and_groupSubopMask_toNat : (w &&& 0xF00F#16).toNat = w.toNat / 4096 * 4096 + w.toNat % 16 := by
  have := w.isLt
  rw [← wordXY_fields w, wordXY_and_groupSubopMask, wordXY_toNat, wordXY_fields, fieldGroup_toNat, fieldSubop_toNat]
  simp; omega

/-- Shifting right by `k` and masking the `m` lowest bits is dividing and taking the remainder (R62). -/
theorem shiftRight_and_lowMask_toNat (k m : Nat) {mask : Word} (hmask : mask.toNat = 2 ^ m - 1) :
    ((w >>> k) &&& mask).toNat = w.toNat / 2 ^ k % 2 ^ m := by
  rw [BitVec.toNat_and, hmask, Nat.and_two_pow_sub_one_eq_mod, BitVec.toNat_ushiftRight, Nat.shiftRight_eq_div_pow]

theorem and_lowMask_toNat (m : Nat) {mask : Word} (hmask : mask.toNat = 2 ^ m - 1) :
    (w &&& mask).toNat = w.toNat % 2 ^ m := by
  rw [BitVec.toNat_and, hmask, Nat.and_two_pow_sub_one_eq_mod]

/-- Settles O41: both sides are the same quotient and remainder of the word's value. -/
theorem fieldsAreTheShiftsAndMasks : Obligations.FieldsAreTheShiftsAndMasks := fun w =>
  ⟨(fieldGroup_toNat w).trans (shiftRight_and_lowMask_toNat w 12 4 rfl).symm,
   (fieldX_val w).trans (shiftRight_and_lowMask_toNat w 8 4 rfl).symm,
   (fieldY_val w).trans (shiftRight_and_lowMask_toNat w 4 4 rfl).symm,
   (fieldSubop_toNat w).trans (and_lowMask_toNat w 4 rfl).symm,
   (fieldKk_toNat w).trans (and_lowMask_toNat w 8 rfl).symm,
   (fieldNnn_toNat w).trans (and_lowMask_toNat w 12 rfl).symm⟩

end Sys2Proof
end

section
/-! The obligations about the dispatch table (spec 30_encoding.md R66 to R69): its rows exclude each other, the decoder
function answers with the row a word selects, and the words that select none. -/

namespace Sys2Proof

variable {w p : Word} {strict : Bool} {r q : OpcodeRow} {b : Word → Instr} {k g n : Nat}

/-! ## Which words select a row -/

theorem selects_wordMask : OpcodeRow.selects ⟨p, 0xFFFF#16, b⟩ w = true ↔ w = p := by
  rw [OpcodeRow.selects, decide_eq_true_iff, show w &&& 0xFFFF#16 = w from BitVec.and_allOnes]

theorem selects_groupMask : OpcodeRow.selects ⟨p, 0xF000#16, b⟩ w = true ↔ w.toNat / 4096 * 4096 = p.toNat := by
  rw [OpcodeRow.selects, decide_eq_true_iff, ← BitVec.toNat_inj, and_groupMask_toNat]

theorem selects_groupSubopMask : OpcodeRow.selects ⟨p, 0xF00F#16, b⟩ w = true ↔
    w.toNat / 4096 * 4096 + w.toNat % 16 = p.toNat := by
  rw [OpcodeRow.selects, decide_eq_true_iff, ← BitVec.toNat_inj, and_groupSubopMask_toNat]

/-- A row with mask F000 is selected by its group. -/
theorem selects_iff_group (hp : p.toNat = g * 4096) :
    OpcodeRow.selects ⟨p, 0xF000#16, b⟩ w = true ↔ (fieldGroup w).toNat = g := by
  have := w.isLt
  rw [selects_groupMask, fieldGroup_toNat]
  omega

/-- A row with mask F00F is selected by its group and its subop. -/
theorem selects_iff_group_subop (hp : p.toNat = g * 4096 + n) (hn : n < 16) :
    OpcodeRow.selects ⟨p, 0xF00F#16, b⟩ w = true ↔ (fieldGroup w).toNat = g ∧ (fieldSubop w).toNat = n := by
  have := w.isLt
  rw [selects_groupSubopMask, fieldGroup_toNat, fieldSubop_toNat]
  omega

/-- The rows of SE Vx, Vy and SNE Vx, Vy under either value of STRICT_REG_SKIP_NIBBLE (D7). -/
theorem selects_iff_skip (hp : p.toNat = g * 4096) :
    OpcodeRow.selects ⟨p, if strict then 0xF00F#16 else 0xF000#16, b⟩ w = true ↔
      (fieldGroup w).toNat = g ∧ (strict = false ∨ fieldSubop w = 0#4) := by
  cases strict
  · simpa using selects_iff_group hp
  · simpa [← BitVec.toNat_inj] using selects_iff_group_subop (n := 0) (by rw [hp, Nat.add_zero]) (by decide)

/-! ## No two rows select the same word -/

/-- Patterns that differ in a bit that both masks fix exclude each other. -/
theorem not_selects_both (h : r.pattern &&& q.mask ≠ q.pattern &&& r.mask) :
    ¬ (r.selects w = true ∧ q.selects w = true) := by
  rintro ⟨hr, hq⟩
  rw [OpcodeRow.selects, decide_eq_true_iff] at hr hq
  apply h
  calc r.pattern &&& q.mask = w &&& r.mask &&& q.mask := by rw [hr]
    _ = w &&& q.mask &&& r.mask := by rw [BitVec.and_assoc, BitVec.and_comm r.mask, ← BitVec.and_assoc]
    _ = q.pattern &&& r.mask := by rw [hq]

theorem opcodeTable_patterns_differ (strict : Bool) : (opcodeTable strict Config.shlSubop).Pairwise
    (fun r q => r.pattern &&& q.mask ≠ q.pattern &&& r.mask) := by
  cases strict <;> decide

/-- Settles O46: the patterns of two rows differ in a bit that both masks fix. -/
theorem noWordSelectsTwoRows : Obligations.NoWordSelectsTwoRows :=
  fun strict _ => (opcodeTable_patterns_differ strict).imp not_selects_both

/-! ## The table's answer -/

theorem selects_of_find? (h : (opcodeTable strict Config.shlSubop).find? (fun r => r.selects w) = some r) :
    r ∈ opcodeTable strict Config.shlSubop ∧ r.selects w = true :=
  ⟨List.mem_of_find?_eq_some h, List.find?_some (p := fun r : OpcodeRow => r.selects w) h⟩

theorem row_eq_of_selects (hq : q ∈ opcodeTable strict Config.shlSubop) (hr : r ∈ opcodeTable strict Config.shlSubop)
    (hqw : q.selects w = true) (hrw : r.selects w = true) : q = r := by
  by_contra hne
  have : Std.Symm fun r q : OpcodeRow => ¬ (r.selects w = true ∧ q.selects w = true) := ⟨fun _ _ h h' => h h'.symm⟩
  exact (noWordSelectsTwoRows strict w).forall hq hr hne ⟨hqw, hrw⟩

/-- The row a word selects decodes it, wherever in the table it stands: there is no other. -/
theorem decodeByTable_of_row (hr : (opcodeTable strict Config.shlSubop)[k]? = some r) (hw : r.selects w = true) :
    decodeByTable strict Config.shlSubop w = .instr (r.build w) := by
  have hr := List.mem_of_getElem? hr
  unfold decodeByTable
  split
  next q hq =>
    obtain ⟨hq, hqw⟩ := selects_of_find? hq
    rw [row_eq_of_selects hq hr hqw hw]
  next hnone => exact absurd hw (List.find?_eq_none.mp hnone r hr)

theorem decodeByTable_of_group (hr : (opcodeTable strict Config.shlSubop)[k]? = some ⟨p, 0xF000#16, b⟩)
    (hg : (fieldGroup w).toNat = g) (hp : p.toNat = g * 4096) :
    decodeByTable strict Config.shlSubop w = .instr (b w) :=
  decodeByTable_of_row hr ((selects_iff_group hp).mpr hg)

theorem decodeByTable_of_group_subop (hr : (opcodeTable strict Config.shlSubop)[k]? = some ⟨p, 0xF00F#16, b⟩)
    (hg : (fieldGroup w).toNat = g) (hn : (fieldSubop w).toNat = n) (hp : p.toNat = g * 4096 + n) :
    decodeByTable strict Config.shlSubop w = .instr (b w) :=
  decodeByTable_of_row hr ((selects_iff_group_subop hp (hn ▸ (fieldSubop w).isLt)).mpr ⟨hg, hn⟩)

/-! ## The words that select no row -/

theorem decodeByTable_eq_unimplemented_iff : decodeByTable strict Config.shlSubop w = .unimplemented w ↔
    ∀ r ∈ opcodeTable strict Config.shlSubop, ¬ r.selects w = true := by
  rw [← List.find?_eq_none, decodeByTable]
  cases (opcodeTable strict Config.shlSubop).find? (fun r => r.selects w) <;> simp

/-- The ranges of R69, less those of groups 5 and 9 where `strict` is false (D7). -/
def InNoRow (strict : Bool) (w : Word) : Prop :=
  (w.toNat < 0x1000 ∧ w.toNat ≠ 0x0000 ∧ w.toNat ≠ 0x00EE) ∨
  (strict = true ∧ (w.toNat / 0x1000 = 0x5 ∨ w.toNat / 0x1000 = 0x9) ∧ w.toNat % 16 ≠ 0) ∨
  (w.toNat / 0x1000 = 0x8 ∧ 0x9 ≤ w.toNat % 16) ∨ 0xA000 ≤ w.toNat

theorem no_row_selects_iff : (∀ r ∈ opcodeTable strict Config.shlSubop, ¬ r.selects w = true) ↔ InNoRow strict w := by
  have := w.isLt
  have hshl : (0x8000#16 ||| Config.shlSubop.setWidth 16) = 0x8008#16 := rfl
  have hse {b} := selects_iff_skip (w := w) (strict := strict) (b := b) (p := 0x5000#16) (g := 5) rfl
  have hsne {b} := selects_iff_skip (w := w) (strict := strict) (b := b) (p := 0x9000#16) (g := 9) rfl
  simp only [opcodeTable, List.forall_mem_append, List.forall_mem_cons, List.not_mem_nil, IsEmpty.forall_iff,
    implies_true, and_true, hshl, hse, hsne, selects_wordMask, selects_groupMask, selects_groupSubopMask,
    ← BitVec.toNat_inj, fieldGroup_toNat, fieldSubop_toNat, BitVec.toNat_ofNat, Nat.reducePow, Nat.reduceMod, InNoRow]
  cases strict
  · simp only [true_or, and_true, Bool.false_eq_true, false_and, false_or]
    omega
  · simp only [Bool.true_eq_false, false_or, true_and]
    omega

theorem decodeByTable_of_inNoRow (h : InNoRow strict w) : decodeByTable strict Config.shlSubop w = .unimplemented w :=
  decodeByTable_eq_unimplemented_iff.mpr (no_row_selects_iff.mpr h)

/-! ## The decoder function is the table -/

theorem decodeByTable_eq_decodeGroup8 (hg : (fieldGroup w).toNat = 8) :
    decodeByTable strict Config.shlSubop w = decodeGroup8 Config.shlSubop w := by
  unfold decodeGroup8
  split
  next hn => exact decodeByTable_of_group_subop (k := 9) rfl hg hn rfl
  next hn => exact decodeByTable_of_group_subop (k := 10) rfl hg hn rfl
  next hn => exact decodeByTable_of_group_subop (k := 11) rfl hg hn rfl
  next hn => exact decodeByTable_of_group_subop (k := 12) rfl hg hn rfl
  next hn => exact decodeByTable_of_group_subop (k := 13) rfl hg hn rfl
  next hn => exact decodeByTable_of_group_subop (k := 14) rfl hg hn rfl
  next hn => exact decodeByTable_of_group_subop (k := 15) rfl hg hn rfl
  next hn => exact decodeByTable_of_group_subop (k := 16) rfl hg hn rfl
  next =>
    split
    next hn => exact decodeByTable_of_group_subop (k := 17) rfl hg hn rfl
    next hn =>
      have hn : (fieldSubop w).toNat ≠ 8 := hn
      simp only [imp_false, fieldSubop_toNat, fieldGroup_toNat] at *
      exact decodeByTable_of_inNoRow (.inr (.inr (.inl (by omega))))

/-- A word of group 5 or 9 that STRICT_REG_SKIP_NIBBLE rules out (D7). -/
theorem decodeByTable_of_skip_nibble (hg : (fieldGroup w).toNat = 5 ∨ (fieldGroup w).toNat = 9)
    (hn : ¬ (strict = false ∨ fieldSubop w = 0#4)) : decodeByTable strict Config.shlSubop w = .unimplemented w := by
  obtain ⟨hs, hn⟩ := not_or.mp hn
  rw [← BitVec.toNat_inj, fieldSubop_toNat] at hn
  rw [fieldGroup_toNat] at hg
  exact decodeByTable_of_inNoRow (.inr (.inl ⟨eq_true_of_ne_false hs, by omega, hn⟩))

/-- Settles O45: each branch of the decoder answers with a row that its word selects, or its word selects none. -/
theorem decoderEqualsTheDispatchTable : Obligations.DecoderEqualsTheDispatchTable := by
  intro strict w
  symm
  unfold decodeWith
  split
  next hw => exact decodeByTable_of_row (k := 0) rfl (selects_wordMask.mpr hw)
  split
  next hw => exact decodeByTable_of_row (k := 1) rfl (selects_wordMask.mpr hw)
  split
  next hg => exact decodeByTable_of_group (k := 2) rfl hg rfl
  next hg => exact decodeByTable_of_group (k := 3) rfl hg rfl
  next hg => exact decodeByTable_of_group (k := 4) rfl hg rfl
  next hg => exact decodeByTable_of_group (k := 5) rfl hg rfl
  next hg =>
    split
    next hn => exact decodeByTable_of_row (k := 6) rfl ((selects_iff_skip rfl).mpr ⟨hg, hn⟩)
    next hn => exact decodeByTable_of_skip_nibble (.inl hg) hn
  next hg => exact decodeByTable_of_group (k := 7) rfl hg rfl
  next hg => exact decodeByTable_of_group (k := 8) rfl hg rfl
  next hg => exact decodeByTable_eq_decodeGroup8 hg
  next hg =>
    split
    next hn => exact decodeByTable_of_row (k := 18) rfl ((selects_iff_skip rfl).mpr ⟨hg, hn⟩)
    next hn => exact decodeByTable_of_skip_nibble (.inr hg) hn
  next hhalt hret _ _ _ _ _ _ _ _ _ _ =>
    have hhalt : w.toNat ≠ 0x0000 := BitVec.toNat_ne.mp hhalt
    have hret : w.toNat ≠ 0x00EE := BitVec.toNat_ne.mp hret
    simp only [imp_false, fieldGroup_toNat] at *
    have := w.isLt
    exact decodeByTable_of_inNoRow (by unfold InNoRow; omega)

theorem decode_eq_decodeByTable (w : Word) : decode w = decodeByTable true Config.shlSubop w :=
  decoderEqualsTheDispatchTable true w

/-- Settles O47: the words that select no row. -/
theorem unimplementedWordsAreExactlyTheListedRanges : Obligations.UnimplementedWordsAreExactlyTheListedRanges := by
  intro w
  rw [decode_eq_decodeByTable, decodeByTable_eq_unimplemented_iff, no_row_selects_iff, InNoRow]
  simp only [true_and]
  omega

end Sys2Proof
end

section
/-! The obligations that decoding and encoding agree (spec 30_encoding.md R61, R64 to R68, R71). -/

namespace Sys2Proof

open Laws (fixedBits_nnn fixedBits_xkk fixedBits_xy)

variable {w p : Word} {b : Word → Instr} {k : Nat} {g n : BitVec 4} {i : Instr}

/-! ## Decoding a word of each form: its row stands at place `k` of the table -/

theorem decode_wordNnn (hr : (opcodeTable true Config.shlSubop)[k]? = some ⟨p, 0xF000#16, b⟩)
    (hp : p.toNat = g.toNat * 4096) (nnn : Addr) : decode (wordNnn g nnn) = .instr (b (wordNnn g nnn)) :=
  (decode_eq_decodeByTable _).trans (decodeByTable_of_group hr (fixedBits_nnn g nnn) hp)

theorem decode_wordXKk (hr : (opcodeTable true Config.shlSubop)[k]? = some ⟨p, 0xF000#16, b⟩)
    (hp : p.toNat = g.toNat * 4096) (x : RegIdx) (kk : Byte) :
    decode (wordXKk g x kk) = .instr (b (wordXKk g x kk)) :=
  (decode_eq_decodeByTable _).trans (decodeByTable_of_group hr (fixedBits_xkk g x kk) hp)

theorem decode_wordXY (hr : (opcodeTable true Config.shlSubop)[k]? = some ⟨p, 0xF00F#16, b⟩)
    (hp : p.toNat = g.toNat * 4096 + n.toNat) (x y : RegIdx) :
    decode (wordXY g x y n) = .instr (b (wordXY g x y n)) :=
  have ⟨hg, hn⟩ := fixedBits_xy g x y n
  (decode_eq_decodeByTable _).trans (decodeByTable_of_group_subop hr hg hn hp)

/-- SHR whatever its y (R64). -/
theorem decode_shr (x y : RegIdx) : decode (wordXY 0x8#4 x y 0x6#4) = .instr (.shr x) := by
  simpa using decode_wordXY (k := 15) rfl rfl x y

/-- SHL whatever its y (R64). -/
theorem decode_shl (x y : RegIdx) : decode (wordXY 0x8#4 x y Config.shlSubop) = .instr (.shl x) := by
  simpa using decode_wordXY (k := 17) rfl rfl x y

/-! ## From the instruction to the word and back -/

theorem decode_encode (i : Instr) : decode (encode i) = .instr i := by
  cases i with
  | halt => rfl
  | ret => rfl
  | jp nnn => simpa [encode] using decode_wordNnn (k := 2) rfl rfl nnn
  | call nnn => simpa [encode] using decode_wordNnn (k := 3) rfl rfl nnn
  | seImm x kk => simpa [encode] using decode_wordXKk (k := 4) rfl rfl x kk
  | sneImm x kk => simpa [encode] using decode_wordXKk (k := 5) rfl rfl x kk
  | seReg x y => simpa [encode] using decode_wordXY (k := 6) rfl rfl x y
  | ldImm x kk => simpa [encode] using decode_wordXKk (k := 7) rfl rfl x kk
  | addImm x kk => simpa [encode] using decode_wordXKk (k := 8) rfl rfl x kk
  | ldReg x y => simpa [encode] using decode_wordXY (k := 9) rfl rfl x y
  | orReg x y => simpa [encode] using decode_wordXY (k := 10) rfl rfl x y
  | andReg x y => simpa [encode] using decode_wordXY (k := 11) rfl rfl x y
  | xorReg x y => simpa [encode] using decode_wordXY (k := 12) rfl rfl x y
  | addReg x y => simpa [encode] using decode_wordXY (k := 13) rfl rfl x y
  | sub x y => simpa [encode] using decode_wordXY (k := 14) rfl rfl x y
  | shr x => exact decode_shr x 0
  | subn x y => simpa [encode] using decode_wordXY (k := 16) rfl rfl x y
  | shl x => exact decode_shl x 0
  | sneReg x y => simpa [encode] using decode_wordXY (k := 18) rfl rfl x y

open Laws in
theorem instr_wellFormed (i : Instr) : i.wellFormed = true := by
  cases i
  exacts [WellFormed.halt, WellFormed.ret, WellFormed.jp _, WellFormed.call _, WellFormed.seImm _ _,
    WellFormed.sneImm _ _, WellFormed.seReg _ _, WellFormed.ldImm _ _, WellFormed.addImm _ _, WellFormed.ldReg _ _,
    WellFormed.orReg _ _, WellFormed.andReg _ _, WellFormed.xorReg _ _, WellFormed.addReg _ _, WellFormed.sub _ _,
    WellFormed.shr _, WellFormed.subn _ _, WellFormed.shl _, WellFormed.sneReg _ _]

/-- Settles O43: an encoded word is its two bytes joined, and it decodes to the instruction. -/
theorem decodingAnEncodedInstructionGivesItBack : Obligations.DecodingAnEncodedInstructionGivesItBack := by
  intro i rest
  have hbytes : decodeBytes (encodeBytes i ++ rest) =
      some (decode (joinBytes (highByte (encode i)) (lowByte (encode i))), rest) := rfl
  rw [hbytes, joinBytes_highByte_lowByte, decode_encode]
  exact ⟨instr_wellFormed i, rfl⟩

/-- Settles O42: each word is a literal. -/
theorem sampleWordsDecode : Obligations.SampleWordsDecode := by
  unfold Obligations.SampleWordsDecode
  decide

/-! ## From the word to the instruction and back -/

theorem wordNnn_of_selects (hw : OpcodeRow.selects ⟨p, 0xF000#16, b⟩ w = true) (hp : p.toNat = g.toNat * 4096) :
    wordNnn g (fieldNnn w) = w := by
  have hg := (selects_iff_group hp).mp hw
  have := w.isLt
  rw [fieldGroup_toNat] at hg
  apply BitVec.eq_of_toNat_eq
  rw [wordNnn_toNat, fieldNnn_toNat]
  omega

theorem wordXKk_of_selects (hw : OpcodeRow.selects ⟨p, 0xF000#16, b⟩ w = true) (hp : p.toNat = g.toNat * 4096) :
    wordXKk g (fieldX w) (fieldKk w) = w := by
  have hg := (selects_iff_group hp).mp hw
  have := w.isLt
  rw [fieldGroup_toNat] at hg
  apply BitVec.eq_of_toNat_eq
  rw [wordXKk_toNat, fieldX_val, fieldKk_toNat]
  omega

theorem wordXY_of_selects (hw : OpcodeRow.selects ⟨p, 0xF00F#16, b⟩ w = true)
    (hp : p.toNat = g.toNat * 4096 + n.toNat) : wordXY g (fieldX w) (fieldY w) n = w := by
  obtain ⟨hg, hn⟩ := (selects_iff_group_subop hp n.isLt).mp hw
  rw [← BitVec.eq_of_toNat_eq hg, ← BitVec.eq_of_toNat_eq hn, wordXY_fields]

/-- The words of SHR and SHL, whose y is encoded as 0 (R64, R71). -/
theorem wordXY_zero_of_selects (hw : OpcodeRow.selects ⟨p, 0xF00F#16, b⟩ w = true)
    (hp : p.toNat = g.toNat * 4096 + n.toNat) : wordXY g (fieldX w) 0 n = w &&& 0xFF0F#16 := by
  rw [← wordXY_and_notYMask g n (fieldX w) (fieldY w), wordXY_of_selects hw hp]

theorem selects_of_decode (h : decode w = .instr i) :
    ∃ r ∈ opcodeTable true Config.shlSubop, r.selects w = true ∧ r.build w = i := by
  rw [decode_eq_decodeByTable, decodeByTable] at h
  split at h
  next r hr =>
    obtain ⟨hr, hw⟩ := selects_of_find? hr
    exact ⟨r, hr, hw, Op.instr.inj h⟩
  next => cases h

/-- Settles O44: the word selects one of the rows, whose form puts its fields together again. -/
theorem encodingADecodedWordGivesItBack : Obligations.EncodingADecodedWordGivesItBack := by
  intro w i h
  obtain ⟨r, hr, hw, rfl⟩ := selects_of_decode h
  simp only [opcodeTable, List.cons_append, List.nil_append, List.mem_cons, List.not_mem_nil, or_false] at hr
  obtain rfl | rfl | rfl | rfl | rfl | rfl | rfl | rfl | rfl | rfl | rfl | rfl | rfl | rfl | rfl | rfl | rfl | rfl |
    rfl := hr
  all_goals
    simp only [encode, reduceCtorEq, exists_const, or_self, Instr.shr.injEq, Instr.shl.injEq, exists_eq', true_or,
      or_true, if_true, if_false]
  exacts [(selects_wordMask.mp hw).symm, (selects_wordMask.mp hw).symm,
    wordNnn_of_selects hw rfl, wordNnn_of_selects hw rfl, wordXKk_of_selects hw rfl, wordXKk_of_selects hw rfl,
    wordXY_of_selects hw rfl, wordXKk_of_selects hw rfl, wordXKk_of_selects hw rfl,
    -- group 8, SHR and SHL among them
    wordXY_of_selects hw rfl, wordXY_of_selects hw rfl, wordXY_of_selects hw rfl, wordXY_of_selects hw rfl,
    wordXY_of_selects hw rfl, wordXY_of_selects hw rfl, wordXY_zero_of_selects hw rfl, wordXY_of_selects hw rfl,
    wordXY_zero_of_selects hw rfl,
    wordXY_of_selects hw rfl]

end Sys2Proof
end

section
/-! The obligation about the assembler (spec 30_encoding.md R71): which lines it refuses and the words of the others. -/

namespace Sys2Proof.Machine

variable {l : AsmLine} {i : Instr} {w : Word}

/-! ## The lines of instructions -/

theorem toInstr_toLine (i : Instr) : toInstr i.toLine = some i := by
  cases i <;> simp [Instr.toLine, toInstr]

theorem ignoredYBits_toLine (i : Instr) : ignoredYBits i.toLine = 0#16 := by
  cases i <;> rfl

/-- A well-formed line is a DW line or an instruction's. -/
theorem wellFormed_cases (h : l.wellFormed = true) :
    (∃ w : Word, l = ⟨.dw, [.num w.toNat]⟩) ∨ l.mnemonic ≠ .dw ∧ ∃ i, toInstr l = some i := by
  obtain ⟨m, operands⟩ := l
  unfold AsmLine.wellFormed at h
  split at h
  case h_22 n hm ho =>
    obtain rfl : m = .dw := hm
    obtain rfl : operands = [.num n] := ho
    have hn : n % 2 ^ 16 = n := Nat.mod_eq_of_lt (of_decide_eq_true h)
    exact .inl ⟨BitVec.ofNat 16 n, by rw [BitVec.toNat_ofNat, hn]⟩
  case h_23 => cases h
  all_goals
    right
    simp_all [toInstr]

/-! ## The word of a line -/

theorem assemble_of_not_wellFormed (h : l.wellFormed = false) : assemble l = none := by
  rw [assemble, h]
  rfl

theorem assemble_dw (w : Word) : assemble ⟨.dw, [.num w.toNat]⟩ = some w := by
  have hwf : AsmLine.wellFormed ⟨.dw, [.num w.toNat]⟩ = true := decide_eq_true w.isLt
  rw [assemble, if_pos hwf]
  simp

theorem assemble_of_toInstr (hwf : l.wellFormed = true) (hi : toInstr l = some i) :
    assemble l = some (encode i ||| ignoredYBits l) := by
  rw [assemble, if_pos hwf]
  split
  next hm ho => simp [toInstr, hm, ho] at hi
  next => rw [hi]; rfl

theorem lt_of_second_reg {x y : Nat} (hwf : l.wellFormed = true) (ho : l.operands = [.reg x, .reg y]) : y < 16 := by
  unfold AsmLine.wellFormed at hwf
  split at hwf <;> simp_all [fitsReg]

/-- The y that a line of SHR or SHL gives, where the word has its y field. -/
theorem ofNat_shiftLeft_four {y : Nat} (h : y < 16) : BitVec.ofNat 16 y <<< 4 = wordXY 0#4 0 ⟨y, h⟩ 0#4 := by
  apply BitVec.eq_of_toNat_eq
  rw [wordXY_toNat, BitVec.toNat_shiftLeft, BitVec.toNat_ofNat, Nat.shiftLeft_eq]
  simp
  omega

/-- Decoding ignores the y that `SHR Vx, Vy` and `SHL Vx, Vy` write (R64; D20). -/
theorem decode_encode_or_ignoredYBits (hwf : l.wellFormed = true) (hi : toInstr l = some i) :
    decode (encode i ||| ignoredYBits l) = .instr i := by
  unfold ignoredYBits
  split
  next x y hm ho =>
    obtain rfl : .shr (Fin.ofNat 16 x) = i := by simpa [toInstr, hm, ho] using hi
    rw [encode, ofNat_shiftLeft_four (lt_of_second_reg hwf ho), wordXY_or_y, decode_shr]
  next x y hm ho =>
    obtain rfl : .shl (Fin.ofNat 16 x) = i := by simpa [toInstr, hm, ho] using hi
    rw [encode, ofNat_shiftLeft_four (lt_of_second_reg hwf ho), wordXY_or_y, decode_shl]
  next => rw [BitVec.or_zero, decode_encode]

theorem assemble_eq_none_iff : assemble l = none ↔ l.wellFormed = false := by
  refine ⟨fun h => ?_, assemble_of_not_wellFormed⟩
  by_contra hwf
  rw [Bool.not_eq_false] at hwf
  obtain ⟨w, rfl⟩ | ⟨-, i, hi⟩ := wellFormed_cases hwf
  · cases (assemble_dw w).symm.trans h
  · cases (assemble_of_toInstr hwf hi).symm.trans h

/-- Everything the assembler can answer with a word. -/
theorem assemble_cases (h : assemble l = some w) : l = ⟨.dw, [.num w.toNat]⟩ ∨
    l.mnemonic ≠ .dw ∧ ∃ i, toInstr l = some i ∧ decode w = .instr i := by
  have hwf : l.wellFormed = true := by
    by_contra hwf
    cases (assemble_of_not_wellFormed (eq_false_of_ne_true hwf)).symm.trans h
  obtain ⟨v, rfl⟩ | ⟨hm, i, hi⟩ := wellFormed_cases hwf
  · rw [assemble_dw, Option.some_inj] at h
    exact .inl (by rw [h])
  · rw [assemble_of_toInstr hwf hi, Option.some_inj] at h
    exact .inr ⟨hm, i, hi, h ▸ decode_encode_or_ignoredYBits hwf hi⟩

/-- Settles O53: a line is refused, a DW line, or an instruction's. -/
theorem assembledLinesDecodeToTheirInstructions : Obligations.AssembledLinesDecodeToTheirInstructions := by
  refine ⟨fun _ => assemble_eq_none_iff, fun i => ?_, fun l w h hm => ?_, assemble_dw, fun l w h hm => ?_⟩
  · rw [assemble_of_toInstr (instr_wellFormed i) (toInstr_toLine i), ignoredYBits_toLine, BitVec.or_zero]
  · obtain rfl | ⟨-, hi⟩ := assemble_cases h
    · exact absurd rfl hm
    · exact hi
  · obtain rfl | ⟨hm', -⟩ := assemble_cases h
    · rfl
    · exact absurd hm hm'

end Sys2Proof.Machine
end

section
/-! The obligation about placing a program (spec 30_encoding.md R71, 20_memory.md R43, R52, 70_reset_and_hazards.md
R163). -/

namespace Sys2Proof.Machine

variable {cfg : Config.Params}

/-- The memory `m` holds the words `ws` from address `a` on, high byte first, and is `m₀` elsewhere. -/
structure HoldsWords (m₀ m : Memory) (ws : List Word) (a : Nat) : Prop where
  word : ∀ (k : Nat) (h : k < ws.length), joinBytes (m.read (a + 2 * k)) (m.read (a + 2 * k + 1)) = ws[k]
  outside : ∀ b, b < a ∨ a + 2 * ws.length ≤ b → m.read b = m₀.read b

theorem HoldsWords.nil (m : Memory) (a : Nat) : HoldsWords m m [] a where
  word := fun _ h => absurd h (Nat.not_lt_zero _)
  outside := fun _ _ => rfl

/-- One more word in front. -/
theorem HoldsWords.cons {m₀ m : Memory} {ws : List Word} {a : Nat} {w : Word}
    (h : HoldsWords ((m₀.write a (highByte w)).write (a + 1) (lowByte w)) m ws (a + 2)) :
    HoldsWords m₀ m (w :: ws) a where
  word := by
    rintro (_ | k) hk
    · rw [h.outside _ (by omega), h.outside _ (by omega)]
      simp [memory_read_write]
    · have hk := h.word k (Nat.lt_of_succ_lt_succ hk)
      rwa [show a + 2 * (k + 1) = a + 2 + 2 * k by omega]
  outside := by
    intro b hb
    rw [List.length_cons] at hb
    rw [h.outside b (by omega), memory_read_write, if_neg (by omega), memory_read_write, if_neg (by omega)]

theorem memWrite_of_lt {s : State cfg} {a : Nat} (v : Byte) (h : a < cfg.memSize) :
    s.memWrite a v = some { s with mem := s.mem.write a v } :=
  if_pos h

/-- Loading words that fit succeeds and changes nothing but the bytes they are placed in. -/
theorem loadBytes_words (ws : List Word) (a : Nat) (s : State cfg) (h : a + 2 * ws.length ≤ cfg.memSize) :
    ∃ m, loadBytes (ws.flatMap (fun w => [highByte w, lowByte w])) a s = some { s with mem := m } ∧
      HoldsWords s.mem m ws a := by
  induction ws generalizing a s with
  | nil => exact ⟨s.mem, rfl, .nil s.mem a⟩
  | cons w ws ih =>
    rw [List.length_cons] at h
    obtain ⟨m, hload, hm⟩ :=
      ih (a + 2) { s with mem := (s.mem.write a (highByte w)).write (a + 1) (lowByte w) } (by omega)
    refine ⟨m, ?_, hm.cons⟩
    rw [List.flatMap_cons, List.cons_append, List.cons_append, List.nil_append, loadBytes,
      memWrite_of_lt _ (by omega), Option.bind_some, loadBytes, memWrite_of_lt _ (by omega), Option.bind_some]
    exact hload

/-- Settles O54, by `loadBytes_words`: a fetch at an address where a word is placed joins its two bytes. -/
theorem placedWordsAreFetched : Obligations.PlacedWordsAreFetched := by
  intro ws s h
  obtain ⟨m, hload, hm⟩ := loadBytes_words ws Config.execBase s h
  refine ⟨{ s with mem := m }, hload, fun k hk => ?_, hm.outside, rfl, rfl, rfl, rfl, rfl⟩
  have hsize : Config.memSize ≤ 4096 := le_rfl
  have hpc : (BitVec.ofNat 16 (Config.execBase + 2 * k)).toNat = Config.execBase + 2 * k :=
    Nat.mod_eq_of_lt (by omega)
  refine fetchWord_eq_some.mpr ⟨?_, ?_⟩
  · show (BitVec.ofNat 16 _).toNat + 1 < Config.memSize
    omega
  · show _ = joinBytes (m.read (BitVec.ofNat 16 _).toNat) (m.read ((BitVec.ofNat 16 _).toNat + 1))
    rw [hpc, hm.word k hk]

end Sys2Proof.Machine
end

section
/-! SUPPORT. What the step of a Running machine can do to the status, and the word of HALT. -/

namespace Sys2Proof.Machine

/-- An instruction of a Running machine leaves it Running, halts it (HALT alone) or faults it. -/
theorem execFor_halts_iff {cfg : Config.Params} (i : Instr) {s : State cfg} (hs : s.status = .running) :
    ∃ t, execFor i s = .next t ∧ t.status ≠ .idle ∧ (t.status = .halted ↔ i = .halt) := by
  have running {t : State cfg} (ht : t.status = s.status) (hi : i ≠ .halt) :
      t.status ≠ .idle ∧ (t.status = .halted ↔ i = .halt) := by simp [ht, hs, hi]
  obtain ⟨hi, h⟩ | ⟨f, h, hi⟩ | ⟨p, h, hi⟩ | ⟨r, h, -, -, hi, -⟩ | ⟨nnn, u, hi, -, hu, h⟩ | ⟨w, u, hi, hu, h⟩ :=
    execFor_cases i s
  · exact ⟨_, h, nofun, iff_of_true rfl hi⟩
  · exact ⟨_, h, nofun, iff_of_false nofun (by rintro rfl; simp at hi)⟩
  · exact ⟨_, h, running rfl (by rintro rfl; simp at hi)⟩
  · exact ⟨_, h, running rfl hi⟩
  · obtain ⟨-, -, -, -, -, hst, -⟩ := push_some hu
    exact ⟨_, h, running hst (by simp [hi])⟩
  · obtain ⟨-, -, -, -, -, -, -, hst⟩ := pop_some hu
    exact ⟨_, h, running hst (by simp [hi])⟩

/-- `execFor_halts_iff` for a decoded operation: the unimplemented word faults. -/
theorem execute_halts_iff (op : Op) {s : State} (hs : s.status = .running) :
    ∃ t, execute op s = .next t ∧ t.status ≠ .idle ∧ (t.status = .halted ↔ op = .instr .halt) := by
  cases op with
  | unimplemented w => exact ⟨_, rfl, nofun, iff_of_false nofun nofun⟩
  | instr i =>
    rw [execute_instr, exec_eq_execFor, Op.instr.injEq]
    exact execFor_halts_iff i hs

/-- The word of HALT (41_control_flow.md R90). -/
theorem decode_eq_halt_iff {w : Word} : decode w = .instr .halt ↔ w = 0x0000#16 := by
  refine ⟨fun h => ?_, fun h => h ▸ decode_encode .halt⟩
  simpa [encode] using (encodingADecodedWordGivesItBack w .halt h).symm

theorem step_of_fetched {s : State} {w : Word} (hs : s.status = .running) (hw : fetchWord s = some w) :
    step s = execute (decode w) s.advance := by
  rw [step_running hs, hw]

theorem step_of_failed_check {s : State} (hs : s.status = .running) (h : Config.memSize ≤ s.pc.toNat + 1) :
    step s = .next { s with status := .faulted (.outOfBoundsFetch s.pc) } :=
  (step_eq_stepFor s).trans (stepFor_of_failed_check hs h)

/-- A Running machine takes a step, which halts it exactly on the word 0000 and never leaves it Idle. -/
theorem step_halts_iff {s : State} (hs : s.status = .running) :
    ∃ t, step s = .next t ∧ t.status ≠ .idle ∧ (t.status = .halted ↔ fetchWord s = some 0x0000#16) := by
  cases hw : fetchWord s with
  | none => exact ⟨_, step_of_failed_check hs (fetchWord_eq_none.mp hw), nofun, iff_of_false nofun nofun⟩
  | some w =>
    rw [step_of_fetched hs hw, Option.some.injEq, ← decode_eq_halt_iff]
    exact execute_halts_iff (decode w) (s := s.advance) hs

end Sys2Proof.Machine
end

section
/-! The obligations about the fetch and the step (spec 40_cycle.md R80 to R85, R87). -/

namespace Sys2Proof.Machine

/-- Settles O4: the fetch joins the two bytes, and a join is high byte times 256 plus low byte. -/
theorem fetchJoinsTwoBytesBigEndian : Obligations.FetchJoinsTwoBytesBigEndian :=
  fun _ hpc => ⟨_, fetchWord_eq_some.mpr ⟨hpc, rfl⟩, joinBytes_toNat _ _⟩

/-- Settles O5: where the check fails only the status changes; where it passes the step is the execution of a decoded
operation, and none raises that fault. -/
theorem failedFetchCheckFaultsAndChangesNothingElse : Obligations.FailedFetchCheckFaultsAndChangesNothingElse := by
  refine fun s hs => ⟨fun hpc => ⟨_, step_of_failed_check hs hpc, rfl, rfl, ?_⟩, ?_⟩
  · exact ⟨fun _ => rfl, fun _ => rfl, rfl, fun _ => rfl⟩
  · rintro hpc p ⟨t, ht, hfault⟩
    have hw := fetchWord_eq_some.mpr ⟨hpc, rfl⟩
    obtain ⟨u, hu, hno⟩ := executeWith_no_fetch_fault (decodeFor Config.defaults _) (s := s.advance) hs
    rw [step_eq_stepFor, stepFor_of_fetched hs hw, hu] at ht
    obtain rfl := Host.Outcome.next.inj ht
    exact hno p hfault

/-- Settles O6: a fetched word's pc is below `MEM_SIZE - 1`, so that its advance does not wrap. -/
theorem everyOperationStartsFromAdvancedPc : Obligations.EveryOperationStartsFromAdvancedPc := by
  intro s w hs hw
  obtain ⟨hpc, -⟩ := fetchWord_eq_some.mp hw
  exact ⟨s.advance.pc, advance_pc_toNat defaults_sizesLegal hpc, step_of_fetched hs hw⟩

/-- Settles O7: the fetched word is the two bytes joined. -/
theorem stepRunsTheDecodedInstruction : Obligations.StepRunsTheDecodedInstruction := by
  intro s i hs hpc hd
  rw [step_of_fetched hs (fetchWord_eq_some.mpr ⟨hpc, rfl⟩), hd]
  rfl

/-- Settles O33: `step_halts_iff`, and the step's answers in the other statuses. -/
theorem runningMachineAlwaysStepsAndNoOtherDoes : Obligations.RunningMachineAlwaysStepsAndNoOtherDoes :=
  ⟨fun _ => step_halts_iff, fun _ => step_of_idle_or_halted, fun _ _ => step_of_faulted⟩

end Sys2Proof.Machine
end

section
/-! SUPPORT. Where a run ends (spec 40_cycle.md R86, R88): the loop under fuel answers by the status of the one state in
which the repetition of the step stops. -/

namespace Sys2Proof.Machine

variable {fuel n k : Nat} {s t u : State}

/-! ## Sequences of steps -/

theorem status_of_step (h : step s = .next t) : s.status = .running :=
  have ⟨hs, _⟩ := step_cases h
  hs

/-- No step leads away from a state that is not Running. -/
theorem eq_of_stepsTo_of_not_running (ht : t.status ≠ .running) (h : StepsTo k t u) : u = t := by
  cases h with
  | refl => rfl
  | next hstep => exact absurd (status_of_step hstep) ht

/-- The step is a function: a longer sequence of steps continues a shorter one. -/
theorem stepsTo_of_stepsTo_add (h : StepsTo n s t) (h' : StepsTo (n + k) s u) : StepsTo k t u := by
  induction h with
  | refl => simpa using h'
  | next hstep _ ih =>
    rw [Nat.add_right_comm] at h'
    cases h' with
    | next hstep' hrest =>
      obtain rfl := Host.Outcome.next.inj (hstep.symm.trans hstep')
      exact ih hrest

/-- Repeating the step from `s` stops in `t`: at most `fuel` steps lead there, and all of them where `t` is still
Running. -/
def StopsAt (fuel : Nat) (s t : State) : Prop :=
  ∃ n, n ≤ fuel ∧ StepsTo n s t ∧ (t.status = .running → n = fuel)

theorem stopsAt_iff_of_not_running (ht : t.status ≠ .running) :
    StopsAt fuel s t ↔ ∃ n, n ≤ fuel ∧ StepsTo n s t := by
  simp [StopsAt, ht]

theorem stopsAt_iff_of_running (ht : t.status = .running) : StopsAt fuel s t ↔ StepsTo fuel s t :=
  ⟨fun ⟨_, _, h, hn⟩ => hn ht ▸ h, fun h => ⟨fuel, le_rfl, h, fun _ => rfl⟩⟩

theorem StopsAt.mono {fuel' : Nat} (h : StopsAt fuel s t) (ht : t.status ≠ .running) (hle : fuel ≤ fuel') :
    StopsAt fuel' s t := by
  rw [stopsAt_iff_of_not_running ht] at h ⊢
  exact h.imp fun _ ⟨hn, hsteps⟩ => ⟨hn.trans hle, hsteps⟩

theorem StopsAt.next (hstep : step s = .next t) (h : StopsAt fuel t u) : StopsAt (fuel + 1) s u :=
  have ⟨n, hn, hsteps, hfull⟩ := h
  ⟨n + 1, Nat.succ_le_succ hn, .next hstep hsteps, fun hu => congrArg Nat.succ (hfull hu)⟩

theorem StopsAt.unique (ht : StopsAt fuel s t) (hu : StopsAt fuel s u) : t = u := by
  obtain ⟨n, hn, hsteps, hfull⟩ := ht
  obtain ⟨m, hm, hsteps', hfull'⟩ := hu
  wlog hnm : n ≤ m generalizing n m t u
  · exact (this m hm hsteps' hfull' n hn hsteps hfull (Nat.le_of_not_le hnm)).symm
  obtain ⟨k, rfl⟩ := Nat.exists_eq_add_of_le hnm
  have hrest := stepsTo_of_stepsTo_add hsteps hsteps'
  by_cases hrun : t.status = .running
  · obtain rfl : k = 0 := by have := hfull hrun; omega
    cases hrest
    rfl
  · exact (eq_of_stepsTo_of_not_running hrun hrest).symm

/-! ## The loop -/

/-- What the loop of R86 answers when it stops in `t` (`runLoop_stops`). -/
def resultIn (t : State) : RunResult :=
  match t.status with
  | .halted => .success t
  | .faulted f => .failure f t
  | .running => .outOfFuel t
  | .idle => .refused .notRunning

theorem resultIn_eq_success_iff : resultIn u = .success t ↔ t.status = .halted ∧ u = t := by
  unfold resultIn
  split <;> grind

theorem resultIn_eq_failure_iff {f : Fault} : resultIn u = .failure f t ↔ t.status = .faulted f ∧ u = t := by
  unfold resultIn
  split <;> grind

theorem resultIn_eq_outOfFuel_iff : resultIn u = .outOfFuel t ↔ t.status = .running ∧ u = t := by
  unfold resultIn
  split <;> grind

theorem resultIn_ne_refused (hu : u.status ≠ .idle) (r : Refusal) : resultIn u ≠ .refused r := by
  unfold resultIn
  split
  next => exact nofun
  next => exact nofun
  next => exact nofun
  next hidle => exact absurd hidle hu

theorem runLoop_zero (hs : s.status = .running) : runLoop 0 s = resultIn s := by
  simp only [runLoop, resultIn, hs]

theorem runLoop_succ_of_step (hstep : step s = .next t) :
    runLoop (fuel + 1) s = if t.status = .running then runLoop fuel t else resultIn t := by
  rw [runLoop_succ, hstep]
  cases ht : t.status <;> simp [resultIn, ht]

/-- The loop from a Running state stops, in one state alone, and answers by its status. -/
theorem runLoop_stops (fuel : Nat) (hs : s.status = .running) :
    ∃ u, runLoop fuel s = resultIn u ∧ u.status ≠ .idle ∧ ∀ t, StopsAt fuel s t ↔ u = t := by
  suffices h : ∃ u, runLoop fuel s = resultIn u ∧ u.status ≠ .idle ∧ StopsAt fuel s u by
    obtain ⟨u, hloop, hidle, hu⟩ := h
    exact ⟨u, hloop, hidle, fun t => ⟨hu.unique, fun e => e ▸ hu⟩⟩
  induction fuel generalizing s with
  | zero => exact ⟨s, runLoop_zero hs, by simp [hs], (stopsAt_iff_of_running hs).mpr (.refl s)⟩
  | succ fuel ih =>
    obtain ⟨t, hstep, hidle, -⟩ := step_halts_iff hs
    rw [runLoop_succ_of_step hstep]
    split
    next hrun =>
      obtain ⟨u, hloop, hu, hstops⟩ := ih hrun
      exact ⟨u, hloop, hu, hstops.next hstep⟩
    next hstopped =>
      exact ⟨t, rfl, hidle, (stopsAt_iff_of_not_running hstopped).mpr
        ⟨1, Nat.le_add_left 1 fuel, .next hstep (.refl t)⟩⟩

/-! ## Run() -/

theorem runFor_of_idle_or_halted (fuel : Nat) (hs : s.status = .idle ∨ s.status = .halted) :
    runFor fuel s = runLoop fuel { s with status := .running } := by
  simp only [runFor, hostRun_of_idle_or_halted hs]

theorem runFor_refused (hs : s.status = .running ∨ ∃ f, s.status = .faulted f) :
    ∃ r, ∀ fuel, runFor fuel s = .refused r := by
  obtain hs | ⟨f, hs⟩ := hs
  · have h : hostRun s = .refused .hostWhileRunning := hostOp_of_running hs .run nofun
    exact ⟨.hostWhileRunning, fun fuel => by simp only [runFor, h]⟩
  · exact ⟨.runAfterFault, fun fuel => by simp only [runFor, hostRun_of_faulted hs]⟩

theorem status_refuses_or_allows_run (s : State) :
    (s.status = .running ∨ ∃ f, s.status = .faulted f) ∨ (s.status = .idle ∨ s.status = .halted) := by
  cases s.status <;> simp

end Sys2Proof.Machine
end

section
/-! The obligations about Run() (spec 40_cycle.md R86 to R88). -/

namespace Sys2Proof.Machine

/-- Settles O51: a run that is not refused answers by the status of the one state in which the steps stop. -/
theorem runOutcomeAgreesWithTheStatusItLeaves : Obligations.RunOutcomeAgreesWithTheStatusItLeaves := by
  intro fuel s
  refine ⟨⟨fun ⟨r, hr⟩ => ?_, fun hs => (runFor_refused hs).imp fun _ h => h fuel⟩, fun hs => ?_⟩
  · refine (status_refuses_or_allows_run s).resolve_right fun hs => ?_
    obtain ⟨u, hloop, hidle, -⟩ := runLoop_stops (s := { s with status := .running }) fuel rfl
    rw [runFor_of_idle_or_halted fuel hs, hloop] at hr
    exact resultIn_ne_refused hidle r hr
  · obtain ⟨u, hloop, -, hstops⟩ := runLoop_stops (s := { s with status := .running }) fuel rfl
    rw [runFor_of_idle_or_halted fuel hs, hloop]
    refine ⟨fun t => ?_, fun f t => ?_, fun t => ?_⟩
    · rw [resultIn_eq_success_iff, ← hstops t]
      exact and_congr_right fun ht => stopsAt_iff_of_not_running (by simp [ht])
    · rw [resultIn_eq_failure_iff, ← hstops t]
      exact and_congr_right fun ht => stopsAt_iff_of_not_running (by simp [ht])
    · rw [resultIn_eq_outOfFuel_iff, ← hstops t]
      exact and_congr_right stopsAt_iff_of_running

/-- Settles O52: a refusal does not depend on the fuel, and a run that is not out of fuel stops with more fuel in the
same state. -/
theorem moreFuelDoesNotChangeTheOutcome : Obligations.MoreFuelDoesNotChangeTheOutcome := by
  intro n m s hnm hfuel
  obtain hs | hs := status_refuses_or_allows_run s
  · obtain ⟨r, hr⟩ := runFor_refused hs
    rw [hr, hr]
  · obtain ⟨t, hloop, -, ht⟩ := runLoop_stops (s := { s with status := .running }) n rfl
    obtain ⟨u, hloop', -, hu⟩ := runLoop_stops (s := { s with status := .running }) m rfl
    rw [runFor_of_idle_or_halted n hs, hloop] at hfuel
    have hended : t.status ≠ .running := fun h => hfuel t (resultIn_eq_outOfFuel_iff.mpr ⟨h, rfl⟩)
    obtain rfl := (hu t).mp (((ht t).mpr rfl).mono hended hnm)
    rw [runFor_of_idle_or_halted n hs, runFor_of_idle_or_halted m hs, hloop, hloop']

end Sys2Proof.Machine
end

section
/-! SUPPORT. The words of RET, JP and CALL, and everything a RET with an entry and a successful CALL do (spec
41_control_flow.md R91 to R93). -/

namespace Sys2Proof.Machine

variable {cfg : Config.Params} {s t : State cfg}

/-! ## The words -/

/-- The word of RET (R91). -/
theorem decode_eq_ret_iff {w : Word} : decode w = .instr .ret ↔ w = 0x00EE#16 := by
  refine ⟨fun h => ?_, fun h => h ▸ decode_encode .ret⟩
  simpa [encode] using (encodingADecodedWordGivesItBack w .ret h).symm

theorem ofNat_group_add_nnn (g : BitVec 4) (nnn : Addr) :
    BitVec.ofNat 16 (g.toNat * 4096 + nnn.toNat) = wordNnn g nnn := by
  rw [← wordNnn_toNat, BitVec.ofNat_toNat, BitVec.setWidth_eq]

/-! ## What equal fields give -/

theorem reg_eq_of_regs_eq (h : t.regs = s.regs) (r : RegIdx) : t.reg r = s.reg r := by
  simp only [State.reg, h]

theorem readByte_eq_of_mem_eq (h : t.mem = s.mem) (a : Nat) : t.readByte a = s.readByte a :=
  congrArg (Memory.read · a) h

theorem sameData_of_fields_eq (hregs : t.regs = s.regs) (hstack : t.stack = s.stack) (hsp : t.sp = s.sp)
    (hmem : t.mem = s.mem) : s.SameData t :=
  ⟨reg_eq_of_regs_eq hregs, slot_eq_of_stack_eq hstack, hsp, readByte_eq_of_mem_eq hmem⟩

/-! ## RET and CALL -/

theorem execRet_pops (h : 0 < s.sp.val) : ∃ t, execRet s = .next t ∧ t.sp.val + 1 = s.sp.val ∧
    (∀ j : Fin cfg.stackDepth, j.val + 1 = s.sp.val → t.pc = s.slot j) ∧
    t.stack = s.stack ∧ t.regs = s.regs ∧ t.mem = s.mem ∧ t.status = s.status := by
  obtain ⟨w, u, hu, hret⟩ := execRet_of_entry h.ne'
  obtain ⟨-, hsp, hslot, hregs, -, hstack, hmem, hst⟩ := pop_some hu
  exact ⟨_, hret, hsp, fun j hj => (hslot j hj).symm, hstack, hregs, hmem, hst⟩

theorem execCall_pushes {nnn : Addr} (hbase : cfg.execBase ≤ nnn.toNat) (hfree : s.sp.val < cfg.stackDepth) :
    ∃ t, execCall nnn s = .next t ∧ t.pc.toNat = nnn.toNat ∧ t.sp.val = s.sp.val + 1 ∧
      (∀ j, t.slot j = if j.val = s.sp.val then s.pc else s.slot j) ∧
      t.regs = s.regs ∧ t.mem = s.mem ∧ t.status = s.status := by
  obtain ⟨u, hu, hcall⟩ := execCall_of_free_slot hbase hfree
  obtain ⟨-, hsp, hregs, -, hmem, hst, hslot⟩ := push_some hu
  exact ⟨_, hcall, targetOperand_toNat nnn, hsp, hslot, hregs, hmem, hst⟩

end Sys2Proof.Machine
end

section
/-! The obligations about HALT, RET, JP and CALL one at a time (spec 41_control_flow.md R90 to R93). -/

namespace Sys2Proof.Machine

/-- Settles O9: past the fetch of 0000 only the status changes, to one from which Run() is allowed. -/
theorem haltEndsTheRunNormally : Obligations.HaltEndsTheRunNormally := by
  refine ⟨fun w => decode_eq_halt_iff, fun s => ⟨_, rfl, rfl, rfl, sameData_of_fields_eq rfl rfl rfl rfl⟩, fun s hs hw => ?_⟩
  have hstep : step s = .next { s.advance with status := .halted } := by
    rw [step_of_fetched hs hw, decode_eq_halt_iff.mpr rfl]
    rfl
  obtain ⟨hpc, -⟩ := fetchWord_eq_some.mp hw
  exact ⟨_, hstep, rfl, advance_pc_toNat defaults_sizesLegal hpc, sameData_of_fields_eq rfl rfl rfl rfl,
    hostRun_of_idle_or_halted (s := { s.advance with status := .halted }) (.inr rfl)⟩

/-- Settles O10: the pop of a nonempty stack moves sp and the pc alone; that of an empty one faults. -/
theorem retPopsTheReturnAddress : Obligations.RetPopsTheReturnAddress := by
  refine ⟨fun w => decode_eq_ret_iff, fun s hpos => ?_, fun s hempty => ?_⟩
  · obtain ⟨t, hret, hsp, hpc, hstack, hregs, hmem, hst⟩ := execRet_pops hpos
    exact ⟨t, hret, hsp, hpc, slot_eq_of_stack_eq hstack, reg_eq_of_regs_eq hregs, readByte_eq_of_mem_eq hmem, hst⟩
  · exact ⟨_, execRet_of_empty hempty, rfl, rfl, sameData_of_fields_eq rfl rfl rfl rfl⟩

/-- Settles O11: a JP is a write of the pc, with no condition on the target. -/
theorem jpSetsThePcToItsTarget : Obligations.JpSetsThePcToItsTarget := fun _ nnn =>
  ⟨ofNat_group_add_nnn 0x1#4 nnn ▸ decode_encode (.jp nnn),
    _, rfl, targetOperand_toNat nnn, sameData_of_fields_eq rfl rfl rfl rfl, rfl⟩

/-- Settles O12: past its two checks a CALL is a push of the pc it starts from and a jump. -/
theorem callPushesTheAdvancedPc : Obligations.CallPushesTheAdvancedPc := by
  refine fun s nnn => ⟨ofNat_group_add_nnn 0x2#4 nnn ▸ decode_encode (.call nnn), fun hbase hfree => ?_⟩
  obtain ⟨t, hcall, hpc, hsp, hslot, hregs, hmem, hst⟩ := execCall_pushes hbase hfree
  exact ⟨t, hcall, hpc, hsp, hslot, reg_eq_of_regs_eq hregs, readByte_eq_of_mem_eq hmem, hst⟩

end Sys2Proof.Machine
end

section
/-! The obligations that call and return pair up (spec 41_control_flow.md R94): a slot below sp survives each step, so
every sequence of steps that stays above it, and the RET that reaches it goes back behind its CALL. -/

namespace Sys2Proof.Machine

variable {s t : State} {w : Word} {nnn : Addr}

/-- A slot below sp outlives a step: only a CALL writes a slot, and that one is at sp. -/
theorem step_keeps_slot (h : step s = .next t) {j : Fin Config.stackDepth} (hj : j.val < s.sp.val) :
    t.slot j = s.slot j := by
  obtain ⟨-, ⟨-, rfl⟩ | ⟨w, -, -, rfl⟩ | ⟨w, i, -, -, hx⟩⟩ := step_cases h
  · rfl
  · rfl
  · obtain ⟨-, hkeep⟩ := onlyCallWritesASlot i s.advance t hx
    exact hkeep j hj.ne

/-- Settles O59: a slot below sp before the step is enough. -/
theorem aStepAboveAReturnAddressKeepsIt : Obligations.AStepAboveAReturnAddressKeepsIt :=
  fun _ _ _ h hj _ => step_keeps_slot h hj

theorem StaysAbove.sp_lt {d : Nat} (h : StaysAbove d s t) : d < t.sp.val := by
  cases h with
  | refl hd => exact hd
  | tail _ _ hd => exact hd

theorem StaysAbove.slot_eq {j : Fin Config.stackDepth} (h : StaysAbove j.val s t) : t.slot j = s.slot j := by
  induction h with
  | refl _ => rfl
  | tail hrun hstep _ ih => exact (step_keeps_slot hstep hrun.sp_lt).trans ih

/-- A CALL after which the machine still runs had room on the stack and stored the address behind it. -/
theorem step_call_pushes (hs : s.status = .running) (hw : fetchWord s = some w) (hd : decode w = .instr (.call nnn))
    (h : step s = .next t) (ht : t.status = .running) :
    ∃ j : Fin Config.stackDepth, j.val = s.sp.val ∧ (t.slot j).toNat = s.pc.toNat + 2 := by
  rw [step_of_fetched hs hw, hd, execute_instr] at h
  obtain ⟨hsp, hslot⟩ | ⟨-, f, hf⟩ := exec_call_sp h
  · have hsp : t.sp.val = s.sp.val + 1 := hsp
    have hlt : t.sp.val < Config.stackDepth + 1 := t.sp.isLt
    obtain ⟨hpc, -⟩ := fetchWord_eq_some.mp hw
    exact ⟨⟨s.sp.val, by omega⟩, rfl, hslot ⟨s.sp.val, by omega⟩ rfl ▸ advance_pc_toNat defaults_sizesLegal hpc⟩
  · simp [hf] at ht

/-- A RET with an entry on the stack. -/
theorem step_ret_pops (hs : s.status = .running) (hw : fetchWord s = some w) (hd : decode w = .instr .ret)
    (hpos : 0 < s.sp.val) : ∃ t, step s = .next t ∧ t.sp.val + 1 = s.sp.val ∧
      (∀ j : Fin Config.stackDepth, j.val + 1 = s.sp.val → t.pc = s.slot j) ∧ t.status = .running := by
  obtain ⟨t, hret, hsp, hpc, -, -, -, hst⟩ := execRet_pops (s := s.advance) hpos
  exact ⟨t, by rw [step_of_fetched hs hw, hd]; exact hret, hsp, hpc, hst.trans hs⟩

/-- Settles O14: the slot the CALL filled is still there when the RET pops it. -/
theorem matchingReturnGoesBackBehindItsCall : Obligations.MatchingReturnGoesBackBehindItsCall := by
  intro s t u w v nnn hw hd hcall ht hrun hu husp hv hret
  obtain ⟨hs, -⟩ := step_cases hcall
  obtain ⟨j, hj, haddr⟩ := step_call_pushes hs hw hd hcall ht
  obtain ⟨r, hr, hrsp, hrpc, hrun'⟩ := step_ret_pops hu hv hret (by omega)
  have hkept : u.slot j = t.slot j := StaysAbove.slot_eq (hj ▸ hrun)
  have hpc : r.pc = t.slot j := (hrpc j (by omega)).trans hkept
  exact ⟨r, hr, hpc ▸ haddr, Fin.ext (by omega), hrun'⟩

end Sys2Proof.Machine
end

section
/-! SUPPORT. A skip read as a comparison of two bytes, and the words of the skips (spec 42_skip.md R100 to R103). -/

namespace Sys2Proof

/-! ## The words -/

theorem ofNat_group_add_x_kk (g : BitVec 4) (x : RegIdx) (kk : Byte) :
    BitVec.ofNat 16 (g.toNat * 4096 + x.val * 256 + kk.toNat) = wordXKk g x kk := by
  rw [← wordXKk_toNat, BitVec.ofNat_toNat, BitVec.setWidth_eq]

theorem ofNat_group_add_x_y_subop (g : BitVec 4) (x y : RegIdx) (n : BitVec 4) :
    BitVec.ofNat 16 (g.toNat * 4096 + x.val * 256 + y.val * 16 + n.toNat) = wordXY g x y n := by
  rw [← wordXY_toNat, BitVec.ofNat_toNat, BitVec.setWidth_eq]

@[simp] theorem fieldSubop_wordXY (g : BitVec 4) (x y : RegIdx) (n : BitVec 4) : fieldSubop (wordXY g x y n) = n :=
  BitVec.eq_of_toNat_eq (Laws.fixedBits_xy g x y n).2

/-- A word of a register skip's row, which stands at place `k` of the table, with any low nibble and under either value
of STRICT_REG_SKIP_NIBBLE (D7). -/
theorem decodeWith_skip {strict : Bool} {k : Nat} {p : Word} {b : Word → Instr} {g : BitVec 4}
    (hr : (opcodeTable strict Config.shlSubop)[k]? = some ⟨p, if strict then 0xF00F#16 else 0xF000#16, b⟩)
    (hp : p.toNat = g.toNat * 4096) (hg : g.toNat = 5 ∨ g.toNat = 9) (x y n : Fin 16) :
    decodeWith strict Config.shlSubop (BitVec.ofNat 16 (p.toNat + x.val * 256 + y.val * 16 + n.val)) =
      if strict = true ∧ n ≠ 0 then .unimplemented (BitVec.ofNat 16 (p.toNat + x.val * 256 + y.val * 16 + n.val))
      else .instr (b (wordXY g x y (.ofFin n))) := by
  have hw : BitVec.ofNat 16 (p.toNat + x.val * 256 + y.val * 16 + n.val) = wordXY g x y (.ofFin n) := by
    rw [hp]
    exact ofNat_group_add_x_y_subop g x y (.ofFin n)
  have hzero : BitVec.ofFin n = 0#4 ↔ n = 0 := BitVec.toFin_inj.symm
  obtain ⟨hgroup, -⟩ := Laws.fixedBits_xy g x y (.ofFin n)
  rw [hw, decoderEqualsTheDispatchTable]
  split
  next hn => exact decodeByTable_of_skip_nibble (hgroup ▸ hg) (by simpa [hzero] using hn)
  next hn =>
    exact decodeByTable_of_row hr ((selects_iff_skip hp).mpr ⟨hgroup, by simpa [hzero, imp_iff_not_or] using hn⟩)

end Sys2Proof

namespace Sys2Proof.Machine

variable {cfg : Config.Params}

/-! ## The pc and the frame -/

/-- A skip moves the pc alone. -/
theorem skipIf_pc_frame (c : Bool) (s : State cfg) : ∃ t, skipIf c s = .next t ∧
    t.pc = (if c then s.pc + 2#16 else s.pc) ∧ s.SameData t ∧ t.status = s.status := by
  cases c with
  | false => exact ⟨s, rfl, rfl, sameData_of_fields_eq rfl rfl rfl rfl, rfl⟩
  | true => exact ⟨s.advance, rfl, rfl, sameData_of_fields_eq rfl rfl rfl rfl, rfl⟩

theorem skipIf_equal (a b : Byte) (s : State cfg) : ∃ t, skipIf (decide (a = b)) s = .next t ∧
    (a.toNat = b.toNat → t.pc = s.pc + 2#16) ∧ (a.toNat ≠ b.toNat → t.pc = s.pc) ∧
    s.SameData t ∧ t.status = s.status := by
  obtain ⟨t, ht, hpc, hframe⟩ := skipIf_pc_frame (decide (a = b)) s
  exact ⟨t, ht, fun h => by simp [hpc, BitVec.eq_of_toNat_eq h], fun h => by simp [hpc, BitVec.toNat_ne.mpr h], hframe⟩

theorem skipIf_different (a b : Byte) (s : State cfg) : ∃ t, skipIf (decide (a ≠ b)) s = .next t ∧
    (a.toNat ≠ b.toNat → t.pc = s.pc + 2#16) ∧ (a.toNat = b.toNat → t.pc = s.pc) ∧
    s.SameData t ∧ t.status = s.status := by
  obtain ⟨t, ht, hpc, hframe⟩ := skipIf_pc_frame (decide (a ≠ b)) s
  exact ⟨t, ht, fun h => by simp [hpc, BitVec.toNat_ne.mpr h], fun h => by simp [hpc, BitVec.eq_of_toNat_eq h], hframe⟩

end Sys2Proof.Machine
end

section
/-! The obligations about the skips one at a time (spec 42_skip.md R100 to R103). -/

namespace Sys2Proof.Machine

/-- Settles O15: the skip compares V[x] with the byte. -/
theorem seImmediateSkipsWhenEqual : Obligations.SeImmediateSkipsWhenEqual := fun s x kk =>
  ⟨ofNat_group_add_x_kk 0x3#4 x kk ▸ decode_encode (.seImm x kk), skipIf_equal (s.reg x) kk s⟩

/-- Settles O16: the comparison of O15, with the other answer skipping. -/
theorem sneImmediateSkipsWhenDifferent : Obligations.SneImmediateSkipsWhenDifferent := fun s x kk =>
  ⟨ofNat_group_add_x_kk 0x4#4 x kk ▸ decode_encode (.sneImm x kk), skipIf_different (s.reg x) kk s⟩

/-- Settles O17: the skips compare V[x] with V[y], and each word selects its skip's row unless D7 rules its nibble out. -/
theorem registerSkipsCompareTwoRegisters : Obligations.RegisterSkipsCompareTwoRegisters := by
  refine ⟨fun s x y => ⟨skipIf_equal (s.reg x) (s.reg y) s, skipIf_different (s.reg x) (s.reg y) s⟩,
    fun x y n strict => ⟨?_, ?_⟩⟩
  · simpa using decodeWith_skip (k := 6) (g := 0x5#4) rfl rfl (.inl rfl) x y n
  · simpa using decodeWith_skip (k := 18) (g := 0x9#4) rfl rfl (.inr rfl) x y n

end Sys2Proof.Machine
end

section
/-! The obligation that a step reads no memory but the word it fetches (spec 42_skip.md R104, 20_memory.md R47, R52):
an instruction takes a state with another memory to the same next state with that other memory. -/

namespace Sys2Proof.Machine

variable {cfg : Config.Params} {s t : State cfg}

theorem skipIf_withMem {c : Bool} (h : skipIf c s = .next t) (m : Memory) :
    skipIf c { s with mem := m } = .next { t with mem := m } := by
  obtain rfl := Host.Outcome.next.inj h
  cases c <;> rfl

theorem push_withMem (s : State cfg) (w : Word) (m : Memory) :
    State.push { s with mem := m } w = (s.push w).map ({ · with mem := m }) := by
  unfold State.push
  split <;> rfl

theorem pop_withMem (s : State cfg) (m : Memory) :
    State.pop { s with mem := m } = s.pop.map fun (w, u) => (w, { u with mem := m }) := by
  unfold State.pop
  split <;> rfl

theorem execCall_withMem {nnn : Addr} (h : execCall nnn s = .next t) (m : Memory) :
    execCall nnn { s with mem := m } = .next { t with mem := m } := by
  unfold execCall at h ⊢
  rw [push_withMem]
  by_cases hlow : (targetOperand nnn).toNat < cfg.execBase
  · rw [if_pos hlow] at h ⊢
    obtain rfl := Host.Outcome.next.inj h
    rfl
  · rw [if_neg hlow] at h ⊢
    cases hu : s.push s.pc with
    | none =>
      obtain rfl := Host.Outcome.next.inj (hu ▸ h)
      rfl
    | some u =>
      obtain rfl := Host.Outcome.next.inj (hu ▸ h)
      rfl

theorem execRet_withMem (h : execRet s = .next t) (m : Memory) :
    execRet { s with mem := m } = .next { t with mem := m } := by
  unfold execRet at h ⊢
  rw [pop_withMem]
  cases hu : s.pop with
  | none =>
    obtain rfl := Host.Outcome.next.inj (hu ▸ h)
    rfl
  | some p =>
    obtain rfl := Host.Outcome.next.inj (hu ▸ h)
    rfl

/-- No instruction reads memory (R47). -/
theorem execFor_withMem {i : Instr} (h : execFor i s = .next t) (m : Memory) :
    execFor i { s with mem := m } = .next { t with mem := m } := by
  cases i with
  | ret => exact execRet_withMem h m
  | call nnn => exact execCall_withMem h m
  | seImm | sneImm | seReg | sneReg => exact skipIf_withMem h m
  | halt | jp | ldImm | addImm | ldReg | orReg | andReg | xorReg | addReg | sub | shr | subn | shl =>
    obtain rfl := Host.Outcome.next.inj h
    rfl

/-- A step whose fetch gives the same answer from another memory does the same. -/
theorem stepFor_withMem {m : Memory} (h : stepFor s = .next t) (hfetch : fetchWord { s with mem := m } = fetchWord s) :
    stepFor { s with mem := m } = .next { t with mem := m } := by
  obtain ⟨hs, ⟨hpc, rfl⟩ | ⟨w, hw, hd, rfl⟩ | ⟨w, i, hw, hd, hx⟩⟩ := cycleWith_cases h
  · exact stepFor_of_failed_check (s := { s with mem := m }) hs hpc
  · rw [stepFor_of_fetched (s := { s with mem := m }) hs (hfetch.trans hw), hd]
    rfl
  · rw [stepFor_of_fetched (s := { s with mem := m }) hs (hfetch.trans hw), hd]
    exact execFor_withMem hx m

/-- Settles O32: the fetch is the step's only look at memory. -/
theorem stepReadsNoMemoryButTheFetchedWord : Obligations.StepReadsNoMemoryButTheFetchedWord := by
  intro s t m h hfetch
  rw [step_eq_stepFor] at h ⊢
  exact stepFor_withMem h hfetch

end Sys2Proof.Machine
end

section
/-! SUPPORT. What the two writes of the immediate and ALU instructions do: V[x] alone (spec 43_immediate.md R110,
44_alu.md R120), or V[x] and then VF (44_alu.md R129, D8); and the carry as a number (R130). -/

namespace Sys2Proof.Machine

variable {cfg : Config.Params}

theorem sameButRegs_setReg (s : State cfg) (x : RegIdx) (v : Byte) : s.SameButRegs (s.setReg x v) :=
  ⟨rfl, fun _ => rfl, rfl, fun _ => rfl, rfl⟩

theorem sameButRegs_writeResultAndFlag (s : State cfg) (x : RegIdx) (v f : Byte) :
    s.SameButRegs (s.writeResultAndFlag x v f) :=
  ⟨rfl, fun _ => rfl, rfl, fun _ => rfl, rfl⟩

theorem setReg_writes_only (s : State cfg) (x : RegIdx) (v : Byte) :
    (s.setReg x v).reg x = v ∧ (∀ r, r ≠ x → (s.setReg x v).reg r = s.reg r) ∧ s.SameButRegs (s.setReg x v) :=
  ⟨by simp, fun r hr => by simp [hr], sameButRegs_setReg s x v⟩

theorem writeResultAndFlag_writes_only (s : State cfg) (x : RegIdx) (v f : Byte) :
    (x ≠ Config.flagReg → (s.writeResultAndFlag x v f).reg x = v) ∧
    (s.writeResultAndFlag x v f).reg Config.flagReg = f ∧
    (∀ r, r ≠ x → r ≠ Config.flagReg → (s.writeResultAndFlag x v f).reg r = s.reg r) ∧
    s.SameButRegs (s.writeResultAndFlag x v f) :=
  ⟨fun hx => by simp [hx], by simp, fun r hr hvf => by simp [hr, hvf], sameButRegs_writeResultAndFlag s x v f⟩

theorem flagByte_toNat (c : Bool) : (flagByte c).toNat = if c then 1 else 0 := by cases c <;> rfl

theorem addFlag_toNat (a b : Byte) : (addFlag a b).toNat = if 256 ≤ a.toNat + b.toNat then 1 else 0 := by
  simp [addFlag, flagByte_toNat]

end Sys2Proof.Machine
end

section
/-! The obligations about LD Vx, kk and ADD Vx, kk (spec 43_immediate.md R110, R111). -/

namespace Sys2Proof.Machine

theorem exec_ldImm (s : State) (x : RegIdx) (kk : Byte) : exec (.ldImm x kk) s = .next (s.setReg x kk) := rfl

theorem exec_addImm (s : State) (x : RegIdx) (kk : Byte) : exec (.addImm x kk) s =
    .next (s.writeResultAndFlag x (addResult (s.reg x) kk) (addFlag (s.reg x) kk)) := rfl

/-- Settles O18: the instruction is one register write, of whatever register x names. -/
theorem ldImmediateWritesItsByte : Obligations.LdImmediateWritesItsByte := fun s x kk =>
  ⟨ofNat_group_add_x_kk 0x6#4 x kk ▸ decode_encode (.ldImm x kk), _, exec_ldImm s x kk, setReg_writes_only s x kk⟩

/-- Settles O19: the sum is written first and the carry last, so VF holds the carry also where x = 0xF (D8). -/
theorem addImmediateWrapsAndWritesCarry : Obligations.AddImmediateWrapsAndWritesCarry := by
  refine fun s x kk => ⟨ofNat_group_add_x_kk 0x7#4 x kk ▸ decode_encode (.addImm x kk), ?_⟩
  obtain ⟨hsum, hcarry, hframe⟩ :=
    writeResultAndFlag_writes_only s x (addResult (s.reg x) kk) (addFlag (s.reg x) kk)
  refine ⟨_, exec_addImm s x kk, fun hx => ?_, ?_, hframe⟩
  · rw [hsum hx, addResult_toNat]
  · rw [hcarry, addFlag_toNat]

end Sys2Proof.Machine
end

section
/-! SUPPORT. The words of the ALU family, what its writes leave in V[x] and VF, and the arithmetic laws of its results
and flags (spec 44_alu.md R120 to R130). -/

namespace Sys2Proof

/-- A word of the family 8xy_, with the group and the sub-operation in one number. -/
theorem ofNat_alu_add_x_y {k : Nat} {n : BitVec 4} (hk : k = 0x8000 + n.toNat) (x y : RegIdx) :
    BitVec.ofNat 16 (k + x.val * 256 + y.val * 16) = wordXY 0x8#4 x y n := by
  rw [← ofNat_group_add_x_y_subop, hk, show (0x8#4).toNat = 8 from rfl]
  congr 1
  omega

/-- The instruction whose word is that of the family with the sub-operation `n`. -/
theorem decode_ofNat_alu {k : Nat} {n : BitVec 4} {x y : RegIdx} {i : Instr}
    (hi : encode i = wordXY 0x8#4 x y n) (hk : k = 0x8000 + n.toNat) :
    decode (BitVec.ofNat 16 (k + x.val * 256 + y.val * 16)) = .instr i := by
  rw [ofNat_alu_add_x_y hk, ← hi, decode_encode]

end Sys2Proof

namespace Sys2Proof.Machine

/-! ## The instructions as writes -/

section
variable (s : State) (x y : RegIdx)

theorem exec_ldReg : exec (.ldReg x y) s = .next (s.setReg x (s.reg y)) := rfl
theorem exec_orReg : exec (.orReg x y) s = .next (s.setReg x (s.reg x ||| s.reg y)) := rfl
theorem exec_andReg : exec (.andReg x y) s = .next (s.setReg x (s.reg x &&& s.reg y)) := rfl
theorem exec_xorReg : exec (.xorReg x y) s = .next (s.setReg x (s.reg x ^^^ s.reg y)) := rfl

theorem exec_addReg : exec (.addReg x y) s =
    .next (s.writeResultAndFlag x (addResult (s.reg x) (s.reg y)) (addFlag (s.reg x) (s.reg y))) := rfl

theorem exec_sub : exec (.sub x y) s =
    .next (s.writeResultAndFlag x (subResult (s.reg x) (s.reg y)) (subFlag (s.reg x) (s.reg y))) := rfl

theorem exec_subn : exec (.subn x y) s =
    .next (s.writeResultAndFlag x (subResult (s.reg y) (s.reg x)) (subFlag (s.reg y) (s.reg x))) := rfl

theorem exec_shr : exec (.shr x) s = .next (s.writeResultAndFlag x (shrResult (s.reg x)) (shrFlag (s.reg x))) := rfl
theorem exec_shl : exec (.shl x) s = .next (s.writeResultAndFlag x (shlResult (s.reg x)) (shlFlag (s.reg x))) := rfl

end

/-! ## What the writes leave -/

section
variable {cfg : Config.Params} (s : State cfg) (x : RegIdx)

/-- `setReg_writes_only`, with the value given by its bits. -/
theorem setReg_writes_bits {v : Byte} {bit : Nat → Bool} (hv : ∀ k, v.getLsbD k = bit k) :
    (∀ k < 8, ((s.setReg x v).reg x).getLsbD k = bit k) ∧
    (∀ r, r ≠ x → (s.setReg x v).reg r = s.reg r) ∧ s.SameButRegs (s.setReg x v) := by
  obtain ⟨hx, hframe⟩ := setReg_writes_only s x v
  exact ⟨fun k _ => by rw [hx, hv], hframe⟩

/-- `writeResultAndFlag_writes_only`, with what is known of the result and with the flag as a number. -/
theorem writeResultAndFlag_writes {v f : Byte} {n : Nat} (P : Byte → Prop) (hv : P v) (hf : f.toNat = n) :
    (x ≠ Config.flagReg → P ((s.writeResultAndFlag x v f).reg x)) ∧
    ((s.writeResultAndFlag x v f).reg Config.flagReg).toNat = n ∧
    (∀ r, r ≠ x → r ≠ Config.flagReg → (s.writeResultAndFlag x v f).reg r = s.reg r) ∧
    s.SameButRegs (s.writeResultAndFlag x v f) := by
  obtain ⟨hx, hflag, hframe⟩ := writeResultAndFlag_writes_only s x v f
  exact ⟨fun h => (hx h).symm ▸ hv, hflag.symm ▸ hf, hframe⟩

end

/-! ## The arithmetic of the results and flags (R130) -/

variable (a b : Byte)

theorem subResult_toInt_emod : ((subResult a b).toNat : Int) = (a.toNat - b.toNat : Int) % 256 := by
  have := b.isLt
  rw [subResult_toNat]
  omega

theorem subFlag_toNat : (subFlag a b).toNat = if b.toNat ≤ a.toNat then 1 else 0 := by
  simp [subFlag, flagByte_toNat]

theorem addFlag_eq_one_iff : addFlag a b = 1#8 ↔ 256 ≤ a.toNat + b.toNat := by simp [addFlag]

theorem addFlag_eq_zero_iff : addFlag a b = 0#8 ↔ a.toNat + b.toNat < 256 := by simp [addFlag]

theorem subFlag_eq_one_iff : subFlag a b = 1#8 ↔ b.toNat ≤ a.toNat := by simp [subFlag]

theorem subFlag_eq_zero_iff : subFlag a b = 0#8 ↔ a.toNat < b.toNat := by simp [subFlag]

/-- Doubling by addition carries out bit 7. -/
theorem addFlag_self_toNat : (addFlag a a).toNat = a.toNat / 128 := by
  have := a.isLt
  rw [addFlag_toNat]
  split <;> omega

/-- The shift right is logical. -/
theorem shrResult_getLsbD_seven : (shrResult a).getLsbD 7 = false := by simp [shrResult]

theorem shlResult_getLsbD_zero : (shlResult a).getLsbD 0 = false := by simp [shlResult]

end Sys2Proof.Machine
end

section
/-! The obligations about the ALU family (spec 44_alu.md R120 to R130). -/

namespace Sys2Proof.Machine

/-- Settles O20: the instruction is one register write, of whatever register x names. -/
theorem ldRegisterCopies : Obligations.LdRegisterCopies := fun s x y =>
  ⟨decode_ofNat_alu rfl rfl, _, exec_ldReg s x y, setReg_writes_only s x (s.reg y)⟩

/-- Settles O21: each is one register write, so VF stays unless x names it (D18). -/
theorem logicOperationsAreBitwiseAndLeaveVf : Obligations.LogicOperationsAreBitwiseAndLeaveVf := fun s x y =>
  ⟨⟨decode_ofNat_alu rfl rfl, _, exec_orReg s x y, setReg_writes_bits s x fun _ => BitVec.getLsbD_or⟩,
    ⟨decode_ofNat_alu rfl rfl, _, exec_andReg s x y, setReg_writes_bits s x fun _ => BitVec.getLsbD_and⟩,
    ⟨decode_ofNat_alu rfl rfl, _, exec_xorReg s x y, setReg_writes_bits s x fun _ => BitVec.getLsbD_xor⟩⟩

/-- Settles O22: the carry is computed from the old values and written last, so VF holds it also where x = 0xF (D8). -/
theorem addRegisterWrapsAndWritesCarry : Obligations.AddRegisterWrapsAndWritesCarry := fun s x y =>
  ⟨decode_ofNat_alu rfl rfl, _, exec_addReg s x y,
    writeResultAndFlag_writes s x (·.toNat = _) (addResult_toNat (s.reg x) (s.reg y)) (addFlag_toNat _ _)⟩

/-- Settles O23: the flag is written last (D8). -/
theorem subWrapsAndWritesNotBorrow : Obligations.SubWrapsAndWritesNotBorrow := fun s x y =>
  ⟨decode_ofNat_alu rfl rfl, _, exec_sub s x y,
    writeResultAndFlag_writes s x (fun v => (v.toNat : Int) = _) (subResult_toInt_emod (s.reg x) (s.reg y))
      (subFlag_toNat _ _)⟩

/-- Settles O24: SUB's result and flag with the operands exchanged. -/
theorem subnWrapsAndWritesNotBorrow : Obligations.SubnWrapsAndWritesNotBorrow := fun s x y =>
  ⟨decode_ofNat_alu rfl rfl, _, exec_subn s x y,
    writeResultAndFlag_writes s x (fun v => (v.toNat : Int) = _) (subResult_toInt_emod (s.reg y) (s.reg x))
      (subFlag_toNat _ _)⟩

/-- Settles O25: the word decodes whatever its y (D20), and the bit shifted out is written last (D8). -/
theorem shrHalvesAndWritesBitZero : Obligations.ShrHalvesAndWritesBitZero := fun s x y =>
  ⟨ofNat_alu_add_x_y (n := 0x6#4) rfl x y ▸ decode_shr x y, _, exec_shr s x,
    writeResultAndFlag_writes s x (·.toNat = _) (shrResult_toNat (s.reg x)) (shrFlag_toNat _)⟩

/-- Settles O26: the word decodes whatever its y (D20), and the bit shifted out is written last (D8). -/
theorem shlDoublesAndWritesBitSeven : Obligations.ShlDoublesAndWritesBitSeven := fun s x y =>
  ⟨ofNat_alu_add_x_y (n := Config.shlSubop) rfl x y ▸ decode_shl x y, _, exec_shl s x,
    writeResultAndFlag_writes s x (·.toNat = _) (shlResult_toNat (s.reg x)) (shlFlag_toNat _)⟩

/-- Settles O27: each row of R130's table, and the writes that put the rows into the registers. -/
theorem aluArithmeticLaws : Obligations.AluArithmeticLaws := by
  intro a b
  refine ⟨⟨addResult_toNat a b, addFlag_eq_one_iff a b, addFlag_eq_zero_iff a b⟩,
    ⟨subResult_toInt_emod a b, subFlag_eq_one_iff a b, subFlag_eq_zero_iff a b⟩,
    ⟨shrResult_toNat a, shrResult_getLsbD_seven a, shrFlag_toNat a⟩,
    ⟨shlResult_toNat a, shlResult_getLsbD_zero a, shlFlag_toNat a⟩,
    ⟨BitVec.sub_self a, (subFlag_eq_one_iff a a).mpr le_rfl, addFlag_self_toNat a⟩, ?_⟩
  rintro s x y rfl rfl
  exact ⟨exec_addReg s x y, exec_sub s x y, exec_subn s x y, exec_shr s x, exec_shl s x,
    exec_orReg s x y, exec_andReg s x y, exec_xorReg s x y, exec_ldReg s x y⟩

end Sys2Proof.Machine
end

section
/-! SUPPORT. Which faults dispatch raises, and the state that each leaves (spec 60_exceptions.md R143 to R148). -/

namespace Sys2Proof.Machine

variable {s t : State} {w : Word} {f : Fault}

/-- A word that is no instruction is rejected as that very word (R143). -/
theorem decode_unimplemented {v : Word} (h : decode w = .unimplemented v) : v = w :=
  decodeFor_unimplemented (cfg := Config.defaults) h

/-- The causes of the faults raised behind the fetch, for the word `w` and the stack of `s`, in the order of their
priority (R143 to R146; CALL's two checks are ordered by D9). -/
def DispatchFault (s : State) (w : Word) (f : Fault) : Prop :=
  (decode w = .unimplemented w ∧ f = .unimplementedInstruction w) ∨
  (∃ nnn, decode w = .instr (.call nnn) ∧ nnn.toNat < Config.execBase ∧ f = .reservedMemoryCall (targetOperand nnn)) ∨
  (∃ nnn, decode w = .instr (.call nnn) ∧ Config.execBase ≤ nnn.toNat ∧ s.sp.val = Config.stackDepth ∧
    f = .stackOverflow) ∨
  (decode w = .instr .ret ∧ s.sp.val = 0 ∧ f = .stackUnderflow)

/-- A word with a cause raises its fault, which writes the status and nothing else (R147). -/
theorem execute_of_dispatchFault (h : DispatchFault s w f) :
    execute (decode w) s = .next { s with status := .faulted f } := by
  obtain ⟨hd, rfl⟩ | ⟨nnn, hd, hbase, rfl⟩ | ⟨nnn, hd, hbase, hsp, rfl⟩ | ⟨hd, hsp, rfl⟩ := h <;> rw [hd]
  · rfl
  · exact execCall_of_reserved hbase
  · exact execCall_of_full hbase hsp
  · exact execRet_of_empty hsp

/-- Of the instructions only CALL and RET fault a Running machine: every other arm, HALT's apart, leaves the status. -/
theorem dispatchFault_of_exec {i : Instr} (hd : decode w = .instr i) (hs : s.status = .running)
    (h : exec i s = .next t) (ht : t.status = .faulted f) : DispatchFault s w f := by
  have not_running (hst : t.status = s.status) : False := by simp [hst, hs] at ht
  obtain ⟨-, hx⟩ | ⟨g, hx, hcause⟩ | ⟨p, hx, -⟩ | ⟨r, hx, -⟩ | ⟨nnn, u, -, -, hu, hx⟩ | ⟨v, u, -, hu, hx⟩ :=
    exec_cases i s <;> obtain rfl := Host.Outcome.next.inj (hx.symm.trans h)
  · cases ht
  · obtain rfl := Status.faulted.inj ht
    simpa [DispatchFault, hd] using hcause
  · exact (not_running rfl).elim
  · exact (not_running rfl).elim
  · obtain ⟨-, -, -, -, -, hst, -⟩ := push_some hu
    exact (not_running hst).elim
  · obtain ⟨-, -, -, -, -, -, -, hst⟩ := pop_some hu
    exact (not_running hst).elim

/-- A fault raised behind the fetch of a Running machine has its cause. -/
theorem dispatchFault_of_execute (hs : s.status = .running) (h : execute (decode w) s = .next t)
    (ht : t.status = .faulted f) : DispatchFault s w f := by
  cases hd : decode w with
  | unimplemented v =>
    obtain rfl := decode_unimplemented hd
    rw [hd, execute_unimplemented] at h
    obtain rfl := Host.Outcome.next.inj h
    exact .inl ⟨hd, (Status.faulted.inj ht).symm⟩
  | instr i =>
    rw [hd, execute_instr] at h
    exact dispatchFault_of_exec hd hs h ht

/-- The step behind the fetch of a word with a cause: the pre-advance is kept (D10). -/
theorem step_of_dispatchFault (hs : s.status = .running) (hw : fetchWord s = some w) (h : DispatchFault s w f) :
    step s = .next { s.advance with status := .faulted f } :=
  (step_of_fetched hs hw).trans (execute_of_dispatchFault (s := s.advance) h)

/-- A step faults at the fetch check (D4) or, past it, at dispatch (R148). -/
theorem faultsNext_iff (hs : s.status = .running) : FaultsNext s f ↔
    (Config.memSize ≤ s.pc.toNat + 1 ∧ f = .outOfBoundsFetch s.pc) ∨
      ∃ w, fetchWord s = some w ∧ DispatchFault s w f := by
  constructor
  · rintro ⟨t, h, ht⟩
    cases hw : fetchWord s with
    | none =>
      have hpc := fetchWord_eq_none.mp hw
      obtain rfl := Host.Outcome.next.inj ((step_of_failed_check hs hpc).symm.trans h)
      exact .inl ⟨hpc, (Status.faulted.inj ht).symm⟩
    | some w =>
      rw [step_of_fetched hs hw] at h
      exact .inr ⟨w, rfl, dispatchFault_of_execute (s := s.advance) hs h ht⟩
  · rintro (⟨hpc, rfl⟩ | ⟨w, hw, h⟩)
    · exact ⟨_, step_of_failed_check hs hpc, rfl⟩
    · exact ⟨_, step_of_dispatchFault hs hw h, rfl⟩

end Sys2Proof.Machine
end

section
/-! The obligations about the faults (spec 60_exceptions.md R141 to R148). -/

namespace Sys2Proof.Machine

/-- Settles O13: CALL compares its target before it looks at the stack (D9), and a fault writes the status alone. -/
theorem callFaultsOnReservedTargetThenOnFullStack : Obligations.CallFaultsOnReservedTargetThenOnFullStack := fun _ _ =>
  ⟨fun hbase => ⟨_, execCall_of_reserved hbase, rfl, rfl, sameData_of_fields_eq rfl rfl rfl rfl⟩,
    fun hbase hsp => ⟨_, execCall_of_full hbase hsp, rfl, rfl, sameData_of_fields_eq rfl rfl rfl rfl⟩⟩

/-- Settles O8: the decoder rejects a word as that word, and the fault keeps the pre-advance (D10). -/
theorem unimplementedWordFaultsWithThatWord : Obligations.UnimplementedWordFaultsWithThatWord := by
  intro s w v hs hw hd
  obtain rfl := decode_unimplemented hd
  obtain ⟨hpc, -⟩ := fetchWord_eq_some.mp hw
  exact ⟨rfl, _, step_of_dispatchFault hs hw (.inl ⟨hd, rfl⟩), rfl, advance_pc_toNat defaults_sizesLegal hpc,
    sameData_of_fields_eq rfl rfl rfl rfl⟩

/-- Settles O34: `faultsNext_iff`, with the causes at dispatch written out. -/
theorem eachFaultHasExactlyItsCause : Obligations.EachFaultHasExactlyItsCause := fun _ _ => faultsNext_iff

/-- Settles O35: the cause of the fault determines the whole state it leaves, which has the pc of the state in which the
fault was raised. -/
theorem faultsArePrecise : Obligations.FaultsArePrecise := by
  intro s t f h ht
  obtain ⟨hs, -⟩ := step_cases h
  obtain ⟨hpc, rfl⟩ | ⟨w, hw, hcause⟩ := (faultsNext_iff hs).mp ⟨t, h, ht⟩
  · obtain rfl := Host.Outcome.next.inj ((step_of_failed_check hs hpc).symm.trans h)
    exact ⟨sameData_of_fields_eq rfl rfl rfl rfl, rfl, (if_neg hpc.not_gt).symm⟩
  · obtain rfl := Host.Outcome.next.inj ((step_of_dispatchFault hs hw hcause).symm.trans h)
    obtain ⟨hpc, -⟩ := fetchWord_eq_some.mp hw
    exact ⟨sameData_of_fields_eq rfl rfl rfl rfl, rfl,
      (advance_pc_toNat defaults_sizesLegal hpc).trans (if_pos hpc).symm⟩

end Sys2Proof.Machine
end

section
/-! The obligations about reset (spec 70_reset_and_hazards.md R160 to R162, 60_exceptions.md R150). -/

namespace Sys2Proof.Machine

variable {cfg : Config.Params} {s t : State cfg} {r : HostReply}

/-- The state before a Reset() that is allowed does not occur in its outcome. -/
theorem hostOp_reset_of_not_running (hs : s.status ≠ .running) :
    hostOp .reset s = .next (State.resetFor cfg, .done) :=
  whenNotRunning_of_not_running hs _

/-- A Reset() that is carried out has one outcome. -/
theorem hostOp_reset_next (h : hostOp .reset s = .next (t, r)) : t = State.resetFor cfg ∧ r = .done := by
  obtain ⟨hs, -⟩ := whenNotRunning_next h
  rw [hostOp_reset_of_not_running hs] at h
  cases h
  exact ⟨rfl, rfl⟩

/-- The host leaves Faulted by Reset() alone: Run() is refused there, and no other operation writes the status. -/
theorem hostOp_keeps_faulted {op : HostOp} {f : Fault} (hs : s.status = .faulted f) (hop : op ≠ .reset)
    (h : hostOp op s = .next (t, r)) : t.status = .faulted f := by
  obtain ⟨_, _, -, -, rfl⟩ | ⟨_, _, -, -, -, rfl⟩ | ⟨hreset, -, -⟩ | ⟨-, hrun, -⟩ | ⟨rfl, -⟩ := hostOp_cases h
  · exact hs
  · exact hs
  · exact absurd hreset hop
  · simp [hs] at hrun
  · exact hs

/-- A step is taken in Running only, so none leaves Faulted. -/
theorem step_ne_next_of_faulted {s : State} {f : Fault} (hs : s.status = .faulted f) (t : State) :
    step s ≠ .next t := by
  rw [step_of_faulted hs]
  nofun

/-- Settles O2: the one outcome of Reset() is the zeroed state; from Running it is refused; `hostOp_keeps_faulted` and
`step_ne_next_of_faulted` exclude every other way out of Faulted. -/
theorem resetIsTheOnlyWayOutOfFaulted : Obligations.ResetIsTheOnlyWayOutOfFaulted := by
  refine ⟨fun s hs => ?_, fun s hs p h => ?_, fun s f hs => ⟨fun op t r => hostOp_keeps_faulted hs,
    step_ne_next_of_faulted hs⟩⟩
  · exact ⟨State.reset, hostOp_reset_of_not_running hs, reset_reg, reset_readByte, reset_slot, rfl,
      resetFor_pc_toNat defaults_sizesLegal, rfl⟩
  · exact (whenNotRunning_next h).1 hs

/-- Settles O1: the fields of `State.reset` one by one, and `hostOp_reset_of_not_running`. -/
theorem constructionIsZeroedAtExecBase : Obligations.ConstructionIsZeroedAtExecBase :=
  ⟨reset_reg, reset_readByte, reset_slot, rfl, resetFor_pc_toNat defaults_sizesLegal, rfl,
    fun _ => hostOp_reset_of_not_running⟩

/-- Settles O3: both outcomes are the reset state, which is Idle, so that Reset() is allowed there again. -/
theorem resetForgetsHistory : Obligations.ResetForgetsHistory := by
  intro s u t t' r r' h h'
  obtain ⟨rfl, rfl⟩ := hostOp_reset_next h
  obtain ⟨rfl, -⟩ := hostOp_reset_next h'
  have hidle : (State.resetFor Config.defaults).status ≠ .running := nofun
  exact ⟨rfl, hostOp_reset_of_not_running hidle⟩

end Sys2Proof.Machine
end
